-- ==== Sys2Proof/Word.lean ====
section
/-! DEFINITION. The unit of data: one byte (20_memory.md R40). -/

namespace Sys2Proof

/-- A byte: 8 bits, the unit of addressing everywhere (R40). A character is one byte. -/
abbrev Byte := BitVec 8

end Sys2Proof
end

