-- ==== Sys2Proof/Config.lean ====
section
/-! DEFINITION. The constants of the block (00_scope.md R5), the bank sizes (10_state.md R31), and the one open
parameter that a rule reads. The spec leaves no value of an instruction open, so there is no free value here. -/

namespace Sys2Proof.Config

/-- The beacon service UUID (R5). -/
def beaconUuid : BitVec 16 := 0xFEAA

/-- `FLAGS_VALUE` (R5): the value byte of the Flags structure the encoder emits. -/
def flagsValue : Byte := 0x06

/-- `UID_LEN_SHORT` and `UID_LEN_LONG` (R5). -/
def uidLenShort : Nat := 17

/-- The UID payload length with the reserved pair (R5). -/
def uidLenLong : Nat := 19

/-- `URL_PAYLOAD_MIN` (R5, 92 D13). -/
def urlPayloadMin : Nat := 2

/-- `URL_ENC_MAX` (R5): the greatest value of the URL payload length minus 1. -/
def urlEncMax : Nat := 17

/-- `URL_BODY_MAX` (R5). -/
def urlBodyMax : Nat := 16

/-- `TLM_LEN_MIN` (R5). -/
def tlmLenMin : Nat := 13

/-- `TLM_LEN_MAX` (R5). -/
def tlmLenMax : Nat := 14

/-- `N_SUFFIX` (R5): a body byte is a suffix code exactly when it is below this. -/
def nSuffix : Nat := 14

/-- `SD_LEN_OVERHEAD` (R5, R173): a parameter with default 1, the source's value. DESIGN CHOICE in part, of the
spec (92 D18): the packet function takes it as an argument, and this is the value the command uses (log 6). -/
def sdLenOverhead : Nat := 1

/-- The greatest number of scan iterations (41_ad_scanner.md R110). -/
def scanIterations : Nat := 16

/-- Bytes of `IN_BUF` (R11) and of `OUT_BUF` (R24). -/
def inBufSize : Nat := 31

/-- Bytes of `TXT_IN` (R13). -/
def txtInSize : Nat := 127

/-- Bytes of `R_URL` (R21, R23). -/
def rUrlSize : Nat := 108

/-- Bytes of `OUT_BUF` (R24). -/
def outBufSize : Nat := 31

end Sys2Proof.Config
end

