-- ==== Sys2Proof/Syntax.lean ====
section
/-! DEFINITION. The instructions: one constructor for each of the 35 rows of spec/opcode_table.json, and the five
formats (30_encoding.md, opening table) whose code maps the rows belong to. -/

namespace Sys2Proof

/-- The five code maps, each matched on a byte at a place of its own (30_encoding.md R76 to R80). -/
inductive Format where
  /-- matched on the AD type byte of a structure (R76) -/
  | ad
  /-- matched on the frame-type byte (R77) -/
  | frame
  /-- matched on the scheme byte, URL payload byte 1 (R78) -/
  | scheme
  /-- matched on one URL body byte (R79) -/
  | sym
  /-- matched on the value written to `CMD` (R80) -/
  | cmd
deriving DecidableEq, Repr

/-- One constructor per row of spec/opcode_table.json. A default row carries the byte it matched, so that the
encoding of an instruction can be read back whole. -/
inductive Instr where
  -- AD structures (R76)
  | adFlags
  | adUuid16
  | adSvcdata16
  | adSkip (t : Byte)
  -- frames (R77)
  | frameUid
  | frameUrl
  | frameTlm
  | frameInvalid (ft : Byte)
  -- URL schemes (R78)
  | urlPfx0
  | urlPfx1
  | urlPfx2
  | urlPfx3
  | urlPfxinvalid (s : Byte)
  -- URL symbols (R79)
  | urlSfx0
  | urlSfx1
  | urlSfx2
  | urlSfx3
  | urlSfx4
  | urlSfx5
  | urlSfx6
  | urlSfx7
  | urlSfx8
  | urlSfx9
  | urlSfx10
  | urlSfx11
  | urlSfx12
  | urlSfx13
  | urlLit (c : Byte)
  -- host commands (R80)
  | cmdDecode
  | cmdScan
  | cmdFrame
  | cmdUrldec
  | cmdUrlenc
  | cmdBuild
  | cmdReserved (code : Byte)
deriving DecidableEq, Repr

end Sys2Proof
end

