-- ==== Sys2Proof/WellFormed.lean ====
section
/-! DEFINITION. Which terms of Instr stand for an encoding: a default row's operand is a byte that no named row of
its format claims (30_encoding.md R76 to R80). -/

namespace Sys2Proof

/-- A default row's byte lies in the set the code map leaves to it; every named row is well formed. -/
def wellFormed : Instr → Bool
  | .adSkip t => t != 0x01 && t != 0x03 && t != 0x16
  | .frameInvalid ft => ft != 0x00 && ft != 0x10 && ft != 0x20
  | .urlPfxinvalid s => 3 < s.toNat
  | .urlLit c => 14 ≤ c.toNat
  | .cmdReserved code => code == 0 || 7 ≤ code.toNat
  | .adFlags | .adUuid16 | .adSvcdata16 | .frameUid | .frameUrl | .frameTlm => true
  | .urlPfx0 | .urlPfx1 | .urlPfx2 | .urlPfx3 => true
  | .urlSfx0 | .urlSfx1 | .urlSfx2 | .urlSfx3 | .urlSfx4 | .urlSfx5 | .urlSfx6 => true
  | .urlSfx7 | .urlSfx8 | .urlSfx9 | .urlSfx10 | .urlSfx11 | .urlSfx12 | .urlSfx13 => true
  | .cmdDecode | .cmdScan | .cmdFrame | .cmdUrldec | .cmdUrlenc | .cmdBuild => true

end Sys2Proof
end

