-- ==== Sys2Proof/Decode.lean ====
section
/-! DEFINITION. The five code maps (30_encoding.md R76 to R80) as decoders, the decoder over byte lists, and the
encoder. The match is on all 8 bits of a byte (R77, R81, R181). -/

namespace Sys2Proof

/-- The AD type map (R76). -/
def decodeAd (t : Byte) : Instr :=
  if t = 0x01 then .adFlags
  else if t = 0x03 then .adUuid16
  else if t = 0x16 then .adSvcdata16
  else .adSkip t

/-- The frame-type map (R77). -/
def decodeFrame (ft : Byte) : Instr :=
  if ft = 0x00 then .frameUid
  else if ft = 0x10 then .frameUrl
  else if ft = 0x20 then .frameTlm
  else .frameInvalid ft

/-- The scheme map (R78). -/
def decodeScheme (s : Byte) : Instr :=
  if s = 0 then .urlPfx0
  else if s = 1 then .urlPfx1
  else if s = 2 then .urlPfx2
  else if s = 3 then .urlPfx3
  else .urlPfxinvalid s

/-- The symbol map (R79): the suffix predicate is exactly "value < 14". -/
def decodeSym (b : Byte) : Instr :=
  match b.toNat with
  | 0 => .urlSfx0
  | 1 => .urlSfx1
  | 2 => .urlSfx2
  | 3 => .urlSfx3
  | 4 => .urlSfx4
  | 5 => .urlSfx5
  | 6 => .urlSfx6
  | 7 => .urlSfx7
  | 8 => .urlSfx8
  | 9 => .urlSfx9
  | 10 => .urlSfx10
  | 11 => .urlSfx11
  | 12 => .urlSfx12
  | 13 => .urlSfx13
  | _ => .urlLit b

/-- The command map (R80, R181). -/
def decodeCmd (c : Byte) : Instr :=
  if c = 1 then .cmdDecode
  else if c = 2 then .cmdScan
  else if c = 3 then .cmdFrame
  else if c = 4 then .cmdUrldec
  else if c = 5 then .cmdUrlenc
  else if c = 6 then .cmdBuild
  else .cmdReserved c

/-- One byte under the map of its format. Every byte has a row in every map (R81), so this is total. -/
def decodeByte : Format → Byte → Instr
  | .ad, b => decodeAd b
  | .frame, b => decodeFrame b
  | .scheme, b => decodeScheme b
  | .sym, b => decodeSym b
  | .cmd, b => decodeCmd b

/-- Why a list of bytes does not decode. -/
inductive DecodeError where
  /-- there is no byte to match: the only input that no map has a row for -/
  | noByte
deriving DecidableEq, Repr

/-- Decodes the first byte of a list under a format's map and gives the rest back. -/
def decode (f : Format) : List Byte → Except DecodeError (Instr × List Byte)
  | [] => .error .noByte
  | b :: rest => .ok (decodeByte f b, rest)

/-- The format whose code map holds the row. -/
def formatOf : Instr → Format
  | .adFlags | .adUuid16 | .adSvcdata16 | .adSkip _ => .ad
  | .frameUid | .frameUrl | .frameTlm | .frameInvalid _ => .frame
  | .urlPfx0 | .urlPfx1 | .urlPfx2 | .urlPfx3 | .urlPfxinvalid _ => .scheme
  | .urlSfx0 | .urlSfx1 | .urlSfx2 | .urlSfx3 | .urlSfx4 | .urlSfx5 | .urlSfx6 => .sym
  | .urlSfx7 | .urlSfx8 | .urlSfx9 | .urlSfx10 | .urlSfx11 | .urlSfx12 | .urlSfx13 => .sym
  | .urlLit _ => .sym
  | .cmdDecode | .cmdScan | .cmdFrame | .cmdUrldec | .cmdUrlenc | .cmdBuild | .cmdReserved _ => .cmd

/-- The byte that selects the instruction in its format's map (R76 to R80). -/
def encodeByte : Instr → Byte
  | .adFlags => 0x01
  | .adUuid16 => 0x03
  | .adSvcdata16 => 0x16
  | .adSkip t => t
  | .frameUid => 0x00
  | .frameUrl => 0x10
  | .frameTlm => 0x20
  | .frameInvalid ft => ft
  | .urlPfx0 => 0
  | .urlPfx1 => 1
  | .urlPfx2 => 2
  | .urlPfx3 => 3
  | .urlPfxinvalid s => s
  | .urlSfx0 => 0
  | .urlSfx1 => 1
  | .urlSfx2 => 2
  | .urlSfx3 => 3
  | .urlSfx4 => 4
  | .urlSfx5 => 5
  | .urlSfx6 => 6
  | .urlSfx7 => 7
  | .urlSfx8 => 8
  | .urlSfx9 => 9
  | .urlSfx10 => 10
  | .urlSfx11 => 11
  | .urlSfx12 => 12
  | .urlSfx13 => 13
  | .urlLit c => c
  | .cmdDecode => 1
  | .cmdScan => 2
  | .cmdFrame => 3
  | .cmdUrldec => 4
  | .cmdUrlenc => 5
  | .cmdBuild => 6
  | .cmdReserved code => code

/-- The words of an instruction: one byte, in every format. -/
def encode (i : Instr) : List Byte := [encodeByte i]

/-- The instruction the block reads from a table word. The one instruction word that reaches the block from outside
is the value written to `CMD` (R14, R181), so a word of no stated format is read under the command map. DEDUCED
(log 2): the bytes of the other four maps mean what the walk that meets them says, and the same byte stands in up to
five maps. -/
def decodeTableWord (nbits w : Nat) : Option Instr :=
  if nbits = 8 ∧ w < 256 then
    match decode .cmd [BitVec.ofNat 8 w] with
    | .ok (i, _) => some i
    | .error _ => none
  else none

end Sys2Proof
end

