-- ==== Sys2Proof/Machine/State.lean ====
section
/-! DEFINITION. The state of one block and of the host's accesses still to come, as plain data; the errors of the
block; the faults and refusals of the model; the state after reset (10_state.md R11 to R31). -/

namespace Sys2Proof.Machine

/-- A byte bank: the listed (index, byte) pairs, indices strictly rising and no listed byte equal to what an unlisted
index reads as. -/
abbrev Memory := List Host.Cell

/-- What an index that a bank does not list reads as. For the block-written banks it is the reset and cleared value
of R28. For `IN_BUF` and `TXT_IN` the spec gives none (R29, 93 U1): DESIGN CHOICE, unsafe (log 3). -/
def Memory.unlisted : Byte := 0

/-- The six error kinds (60_exceptions.md R200). They are results of the block, not stops of the model. -/
inductive ErrorKind where
  | invalidArgument
  | notABeaconAdvertisement
  | boundsViolation
  | lengthMismatch
  | invalidScheme
  | invalidFrameType
deriving DecidableEq, Repr

/-- The host-written registers and banks (10_state.md section 2). -/
structure HostRegs where
  /-- `IN_BUF`, 31 bytes (R11) -/
  inBuf : Memory
  /-- `IN_LEN`, 5 bits (R11) -/
  inLen : BitVec 5
  /-- `ARG`, 8 bits (R12) -/
  arg : Byte
  /-- `TXT_IN`, 127 bytes (R13) -/
  txtIn : Memory
  /-- `TXT_IN_LEN`, 7 bits (R13) -/
  txtInLen : BitVec 7
  /-- `CMD`, 8 bits: the last value written (R14) -/
  cmd : Byte
deriving DecidableEq, Repr

/-- The header registers, the source's CommonHeader (R19). -/
structure Header where
  /-- `H_FLAGS_VALID`, 1 bit -/
  flagsValid : BitVec 1
  /-- `H_FLAGS`, 8 bits -/
  flags : Byte
  /-- `H_SVC_UUID`, 16 bits -/
  svcUuid : BitVec 16
  /-- `H_SVC_DATA_TYPE`, 16 bits -/
  svcDataType : BitVec 16
  /-- `H_FRAME_TYPE`, 8 bits -/
  frameType : Byte
deriving DecidableEq, Repr

/-- The result registers, the source's BeaconResult (R21). -/
structure FrameResult where
  /-- `R_KIND`, 2 bits: 0 none, 1 UID, 2 URL, 3 TLM -/
  kind : BitVec 2
  /-- `R_TXPOWER`, 8 bits, read as `s8` -/
  txpower : Byte
  /-- `R_NAMESPACE`, 10 bytes -/
  nspace : Memory
  /-- `R_INSTANCE`, 6 bytes -/
  inst : Memory
  /-- `R_RSVD_PRESENT`, 1 bit -/
  rsvdPresent : BitVec 1
  /-- `R_RSVD`, 2 bytes -/
  rsvd : Memory
  /-- `R_URL`, 108 bytes -/
  url : Memory
  /-- `R_URL_LEN`, 7 bits -/
  urlLen : BitVec 7
  /-- `R_VERSION`, 8 bits -/
  version : Byte
  /-- `R_VBATT`, 16 bits -/
  vbatt : BitVec 16
  /-- `R_TEMP_INT`, 8 bits, read as `s8` -/
  tempInt : Byte
  /-- `R_TEMP_FRAC`, 8 bits -/
  tempFrac : Byte
  /-- `R_ADV_COUNT`, 32 bits -/
  advCount : BitVec 32
  /-- `R_TIME`, 32 bits -/
  time : BitVec 32
deriving DecidableEq, Repr

/-- The block-written registers and banks (10_state.md sections 3 to 6). -/
structure BlockRegs where
  /-- `STATUS`, 2 bits: bit 0 `DONE`, bit 1 `ERR` (R15) -/
  status : BitVec 2
  /-- `ERR_CODE`, 3 bits (R16) -/
  errCode : BitVec 3
  /-- `POS`, 5 bits, the scan cursor (R17) -/
  pos : BitVec 5
  /-- the `H_*` registers (R19) -/
  header : Header
  /-- the `R_*` registers (R21) -/
  result : FrameResult
  /-- `OUT_BUF`, 31 bytes (R24) -/
  outBuf : Memory
  /-- `OUT_LEN`, 5 bits (R24) -/
  outLen : BitVec 5
deriving DecidableEq, Repr

/-- A register, or one byte of a bank, by name: what the host reads (R10, R41). -/
inductive HostReg where
  | inBuf (i : Fin 31)
  | inLen
  | arg
  | txtIn (i : Fin 127)
  | txtInLen
  | cmd
  | status
  | errCode
  | pos
  | hFlagsValid
  | hFlags
  | hSvcUuid
  | hSvcDataType
  | hFrameType
  | rKind
  | rTxpower
  | rNamespace (i : Fin 10)
  | rInstance (i : Fin 6)
  | rRsvdPresent
  | rRsvd (i : Fin 2)
  | rUrl (i : Fin 108)
  | rUrlLen
  | rVersion
  | rVbatt
  | rTempInt
  | rTempFrac
  | rAdvCount
  | rTime
  | outBuf (i : Fin 31)
  | outLen
deriving DecidableEq, Repr

/-- One event at the block's host side (R10, R48, R220). A length above 31 or 127 and an index outside a bank cannot
be written down, as they cannot be written to the hardware (R11, R13, R47). -/
inductive HostEvent where
  | writeInBuf (i : Fin 31) (b : Byte)
  | writeInLen (n : BitVec 5)
  | writeArg (b : Byte)
  | writeTxtIn (i : Fin 127) (b : Byte)
  | writeTxtInLen (n : BitVec 7)
  /-- the write that runs a command (R180) -/
  | writeCmd (c : Byte)
  /-- a read, with no side effect (R45) -/
  | read (r : HostReg)
  /-- reset (R220), with the contents the two input banks then hold: the spec does not define them (R29), so the
  event brings them, and a statement about every event is one about every contents (log 3) -/
  | reset (inBytes txtBytes : List Byte)
deriving DecidableEq, Repr

/-- The machine: the two groups of registers of 10_state.md, and the host's events still to come, oldest first (the
model's own field, log 1). -/
structure State where
  host : HostRegs
  blk : BlockRegs
  pending : List HostEvent
deriving DecidableEq, Repr

/-- Why the model stops. No step reaches any of them (log 7). -/
inductive Fault where
  /-- A character would be written at an index of `R_URL` that does not exist (R47). Raised by a URL row run in a
  state with no room for its text, which no command makes (R148). Safe. -/
  | urlBankOverflow
  /-- A scan went on past the 16 iterations of R110. Raised by the scan loop, never reached. Safe. -/
  | scanUnbounded
  /-- A unit was handed a row of another format. Raised by the units' dispatchers, which decode under their own map,
  so it is never reached. Safe. -/
  | wrongFormat
deriving DecidableEq, Repr

/-- Why the model gives an instruction no meaning. -/
inductive Refusal where
  /-- The instruction has no meaning yet. Raised by exec's refused arms only, of which there is none. Safe. -/
  | notModelled (mnemonic : String)
deriving DecidableEq, Repr

/-- The header registers at their reset value (R28). -/
def Header.cleared : Header :=
  { flagsValid := 0, flags := 0, svcUuid := 0, svcDataType := 0, frameType := 0 }

/-- The result registers at their reset value (R28). -/
def FrameResult.cleared : FrameResult :=
  { kind := 0, txpower := 0, nspace := [], inst := [], rsvdPresent := 0, rsvd := [], url := [], urlLen := 0,
    version := 0, vbatt := 0, tempInt := 0, tempFrac := 0, advCount := 0, time := 0 }

/-- Every block-written register at its reset value (R28): also the state every command starts from (R182). -/
def BlockRegs.cleared : BlockRegs :=
  { status := 0, errCode := 0, pos := 0, header := Header.cleared, result := FrameResult.cleared, outBuf := [],
    outLen := 0 }

/-- The host-written registers at reset (R29). The two input banks list nothing: their contents are unspecified, and
reading as 0 is a DESIGN CHOICE (log 3). -/
def HostRegs.atReset : HostRegs :=
  { inBuf := [], inLen := 0, arg := 0, txtIn := [], txtInLen := 0, cmd := 0 }

/-- The machine right after reset (R28, R29, R221), with no host event pending (log 1). -/
def State.reset : State :=
  { host := HostRegs.atReset, blk := BlockRegs.cleared, pending := [] }

end Sys2Proof.Machine
end

