-- ==== Sys2Proof/Machine/Flags.lean ====
section
/-! DEFINITION. The status and flag values: the bits of `STATUS` (10_state.md R15), the error codes (R16), and the
one-bit presence flags. -/

namespace Sys2Proof.Machine

/-- `STATUS` with the given `DONE` (bit 0) and `ERR` (bit 1) (R15). -/
def statusOf (done err : Bool) : BitVec 2 := BitVec.ofBool err ++ BitVec.ofBool done

/-- `STATUS` after a command that ended in success (R182 step 3, R212). -/
def statusDone : BitVec 2 := statusOf true false

/-- `STATUS` after a command that ended in an error (R182 step 3, R210). -/
def statusDoneErr : BitVec 2 := statusOf true true

/-- `STATUS.DONE` (R15). -/
def State.done (s : State) : Bool := s.blk.status.getLsbD 0

/-- `STATUS.ERR` (R15). -/
def State.err (s : State) : Bool := s.blk.status.getLsbD 1

/-- The code of an error kind in `ERR_CODE` (R16, R200). -/
def errorCode : ErrorKind → BitVec 3
  | .invalidArgument => 1
  | .notABeaconAdvertisement => 2
  | .boundsViolation => 3
  | .lengthMismatch => 4
  | .invalidScheme => 5
  | .invalidFrameType => 6

/-- A one-bit presence flag (`H_FLAGS_VALID`, `R_RSVD_PRESENT`). -/
def presence (b : Bool) : BitVec 1 := BitVec.ofBool b

end Sys2Proof.Machine
end

