-- ==== Sys2Proof/Machine/Ops.lean ====
section
/-! DEFINITION. The named operations over banks and registers, raising an error, and how a row and a command end. -/

namespace Sys2Proof.Machine

/-! ### Byte banks (20_memory.md R40, R45) -/

/-- `BANK[i]`: one byte, no side effect (R45). -/
def Memory.read : Memory → Nat → Byte
  | [], _ => Memory.unlisted
  | (k, b) :: rest, i => if k = i then b else Memory.read rest i

/-- `BANK[i] <- v`, keeping the canonical form: a byte that equals what an unlisted index reads as is not listed. -/
def Memory.write : Memory → Nat → Byte → Memory
  | [], i, v => if v = Memory.unlisted then [] else [(i, v)]
  | (k, b) :: rest, i, v =>
    if i < k then
      if v = Memory.unlisted then (k, b) :: rest else (i, v) :: (k, b) :: rest
    else if i = k then
      if v = Memory.unlisted then rest else (i, v) :: rest
    else (k, b) :: Memory.write rest i v

/-- `MemWrite(BANK, i, n, s)`: the bytes of `s`, lowest index first (00_scope.md section 5.2). -/
def Memory.writeBytes : Memory → Nat → List Byte → Memory
  | m, _, [] => m
  | m, i, b :: bs => Memory.writeBytes (Memory.write m i b) (i + 1) bs

/-- `MemRead(BANK, i, n)`: `n` bytes from index `i`, lowest index first (00_scope.md section 5.2). -/
def Memory.readBytes : Memory → Nat → Nat → List Byte
  | _, _, 0 => []
  | m, i, n + 1 => Memory.read m i :: Memory.readBytes m (i + 1) n

/-- Every listed index is above `lo`, the indices rise, and no listed byte is the unlisted one. -/
def Memory.canonicalAbove : Nat → Memory → Bool
  | _, [] => true
  | lo, (k, b) :: rest => lo ≤ k && b != Memory.unlisted && Memory.canonicalAbove (k + 1) rest

/-- The canonical form: equal banks are equal data. -/
def Memory.wf (m : Memory) : Bool := Memory.canonicalAbove 0 m

/-- Every listed index is below `n`: the bank lies within its range (R40, R47), and reads 0 from `n` on. -/
def Memory.below (n : Nat) (m : Memory) : Bool := m.all fun c => c.1 < n

/-! ### Register updates -/

/-- Writes the host-written group. -/
def State.setHost (s : State) (h : HostRegs) : State := { s with host := h }

/-- Writes the block-written group. -/
def State.setBlk (s : State) (b : BlockRegs) : State := { s with blk := b }

/-- `POS <- p` (R17). -/
def State.setPos (s : State) (p : Nat) : State := s.setBlk { s.blk with pos := BitVec.ofNat 5 p }

/-- Writes the header registers (R19). -/
def State.setHeader (s : State) (h : Header) : State := s.setBlk { s.blk with header := h }

/-- Writes the result registers (R21). -/
def State.setResult (s : State) (r : FrameResult) : State := s.setBlk { s.blk with result := r }

/-- `STATUS <- v` (R15). -/
def State.setStatus (s : State) (v : BitVec 2) : State := s.setBlk { s.blk with status := v }

/-- `OUT_BUF[0 .. len) <- bytes; OUT_LEN <- len`, on a cleared `OUT_BUF` (R24, R53). -/
def State.setOut (s : State) (bytes : List Byte) : State :=
  s.setBlk { s.blk with outBuf := Memory.writeBytes [] 0 bytes, outLen := BitVec.ofNat 5 bytes.length }

/-- `CMD <- c`: reading `CMD` then gives the last value written (R14). -/
def State.setCmd (s : State) (c : Byte) : State := s.setHost { s.host with cmd := c }

/-- Clear (R182 step 1): every block-written register and bank gets its reset value. -/
def State.clear (s : State) : State := s.setBlk BlockRegs.cleared

/-! ### Errors: the block's exceptions (60_exceptions.md) -/

/-- The block-written registers after error `e`: `STATUS = DONE + ERR`, `ERR_CODE` the code of `e`, everything else
cleared (R210). -/
def BlockRegs.failed (e : ErrorKind) : BlockRegs :=
  { BlockRegs.cleared with status := statusDoneErr, errCode := errorCode e }

/-- Error entry, the one shared operation (R182 step 3, R210): nothing of the partial work is kept, the host-written
state is as it was, nothing is saved, and control goes nowhere. There is no return operation: the next command clears
the error with everything else (R211). -/
def State.takeError (s : State) (e : ErrorKind) : State := s.setBlk (BlockRegs.failed e)

/-- Why a run inside the block ends early: an error of the block, or a stop of the model. -/
inductive Stop where
  /-- `raise e` (00_scope.md section 5.2) -/
  | raise (e : ErrorKind)
  /-- the model's own stop (log 7) -/
  | fault (f : Fault)
deriving DecidableEq, Repr

/-- `raise e` ends the operation at once (00_scope.md section 5.2, R200). -/
def raise {α : Type} (e : ErrorKind) : Except Stop α := .error (.raise e)

/-- The check "if not `c`: raise `e`". -/
def require (c : Bool) (e : ErrorKind) : Except Stop Unit := if c then .ok () else raise e

/-- How one row ends when it is run on its own from `s`: with its effect, or with the error entry of R210. -/
def finishRow (s : State) : Except Stop State → Host.Outcome State Fault Refusal
  | .ok t => .next t
  | .error (.raise e) => .next (s.takeError e)
  | .error (.fault f) => .fault f

/-- Clear, run, report (R182): the command's function runs on the cleared state; a success sets `STATUS <- DONE`, an
error leaves only `STATUS` and `ERR_CODE`. -/
def runCommand (s : State) (f : State → Except Stop State) : Host.Outcome State Fault Refusal :=
  match f s.clear with
  | .ok t => .next (t.setStatus statusDone)
  | .error (.raise e) => .next (s.takeError e)
  | .error (.fault q) => .fault q

end Sys2Proof.Machine
end

