-- ==== Sys2Proof/Machine/Operands.lean ====
section
/-! DEFINITION. Operand forms: the numbers assembled from bytes (00_scope.md section 5.1, 30_encoding.md R71 to R74),
the AD structure at the cursor (41_ad_scanner.md R101), the payload slice (20_memory.md R54). -/

namespace Sys2Proof.Machine

/-- `LE16(b0, b1) = b0 + 256*b1`: the first byte is the low one (R71). -/
def le16 (b0 b1 : Byte) : BitVec 16 := b1 ++ b0

/-- `BE16(b0, b1) = 256*b0 + b1` (R72). -/
def be16 (b0 b1 : Byte) : BitVec 16 := b0 ++ b1

/-- `BE32(b0, b1, b2, b3)`: the first byte is the highest (R72). -/
def be32 (b0 b1 b2 b3 : Byte) : BitVec 32 := b0 ++ b1 ++ b2 ++ b3

/-- `s8(b)`: the byte read as a signed two's-complement integer (R73; two's complement is 93 G1, log 10). -/
def s8 (b : Byte) : Int := if b.toNat < 128 then b.toNat else (b.toNat : Int) - 256

/-- The temperature of a TLM result, exactly (R22, R74, R126): the block holds the two bytes and this rational is what
they mean. -/
def temperature (hi lo : Byte) : ℚ := (s8 hi : ℚ) + (lo.toNat : ℚ) / 256

/-- `IN_LEN` as a number. -/
def State.len (s : State) : Nat := s.host.inLen.toNat

/-- `POS` as a number. -/
def State.cursor (s : State) : Nat := s.blk.pos.toNat

/-- `B[i]`: one byte of `IN_BUF`. -/
def State.inByte (s : State) (i : Nat) : Byte := s.host.inBuf.read i

/-- `IN_BUF[POS .. IN_LEN)`: the payload slice, to the end of the supplied buffer (R54). With `POS = 0`, the cleared
cursor, it is the argument `IN_BUF[0 .. IN_LEN)` of the commands that take a payload or a body (R185, R186, R188). -/
def State.payload (s : State) : List Byte := s.host.inBuf.readBytes s.cursor (s.len - s.cursor)

/-- `TXT_IN[0 .. TXT_IN_LEN)`: the text argument (R13, R187). -/
def State.text (s : State) : List Byte := s.host.txtIn.readBytes 0 s.host.txtInLen.toNat

/-- Byte `k` of a byte string. Every use is behind the length check that makes `k` an index of it (R44). -/
def byteAt (bytes : List Byte) (k : Nat) : Byte := bytes.getD k 0

/-- The length byte `L` of the structure at `POS`, after steps 1 to 4 of the iteration (R101): the cursor is below
`IN_LEN`, `L` is not 0, and the structure fits. Each recognised structure and each skipped one takes its operand
through this (log 4). -/
def adStructure (s : State) : Except Stop Nat := do
  require (s.cursor < s.len) .notABeaconAdvertisement
  require (0 < (s.inByte s.cursor).toNat) .notABeaconAdvertisement
  require (s.cursor + 1 + (s.inByte s.cursor).toNat ≤ s.len) .boundsViolation
  return (s.inByte s.cursor).toNat

/-- The frame-type bytes a scan accepts (R105, R77). -/
def isFrameType (ft : Byte) : Bool := ft == 0x00 || ft == 0x10 || ft == 0x20

end Sys2Proof.Machine
end

