-- ==== Sys2Proof/Machine/Rom.lean ====
section
/-! DEFINITION. The two read-only tables (43_url_codec.md R140, R141). They are constants: they exist with their
contents at every moment and nothing can write them (10_state.md R25, R30). The byte codes are ASCII (93 G2, log 10). -/

namespace Sys2Proof.Machine

/-- `PREFIX_ROM`, indices 0 to 3 (R140). -/
def prefixRom : Nat → List Byte
  | 0 => [0x68, 0x74, 0x74, 0x70, 0x3A, 0x2F, 0x2F, 0x77, 0x77, 0x77, 0x2E]
  | 1 => [0x68, 0x74, 0x74, 0x70, 0x73, 0x3A, 0x2F, 0x2F, 0x77, 0x77, 0x77, 0x2E]
  | 2 => [0x68, 0x74, 0x74, 0x70, 0x3A, 0x2F, 0x2F]
  | 3 => [0x68, 0x74, 0x74, 0x70, 0x73, 0x3A, 0x2F, 0x2F]
  | _ => []

/-- `SUFFIX_ROM`, indices 0 to 13 (R141). -/
def suffixRom : Nat → List Byte
  | 0 => [0x2E, 0x63, 0x6F, 0x6D, 0x2F]
  | 1 => [0x2E, 0x6F, 0x72, 0x67, 0x2F]
  | 2 => [0x2E, 0x65, 0x64, 0x75, 0x2F]
  | 3 => [0x2E, 0x6E, 0x65, 0x74, 0x2F]
  | 4 => [0x2E, 0x69, 0x6E, 0x66, 0x6F, 0x2F]
  | 5 => [0x2E, 0x62, 0x69, 0x7A, 0x2F]
  | 6 => [0x2E, 0x67, 0x6F, 0x76, 0x2F]
  | 7 => [0x2E, 0x63, 0x6F, 0x6D]
  | 8 => [0x2E, 0x6F, 0x72, 0x67]
  | 9 => [0x2E, 0x65, 0x64, 0x75]
  | 10 => [0x2E, 0x6E, 0x65, 0x74]
  | 11 => [0x2E, 0x69, 0x6E, 0x66, 0x6F]
  | 12 => [0x2E, 0x62, 0x69, 0x7A]
  | 13 => [0x2E, 0x67, 0x6F, 0x76]
  | _ => []

end Sys2Proof.Machine
end

