-- ==== Sys2Proof/Machine/UrlCodec.lean ====
section
/-! DEFINITION. The URL symbol codec (43_url_codec.md): the scheme and symbol rows, the decoder that runs them over a
body, and the encoder. -/

namespace Sys2Proof.Machine

/-! ### Text output -/

/-- The output cursor `o` of R146: the characters written so far. -/
def State.urlCursor (s : State) : Nat := s.blk.result.urlLen.toNat

/-- Appends characters to the text in `R_URL` at the output cursor (R53, R146). A character past the end of the bank
would go to an index that does not exist (R47): the model stops (log 7). -/
def emit (chars : List Byte) (s : State) : Except Stop State :=
  if s.urlCursor + chars.length ≤ Config.rUrlSize then
    .ok (s.setResult { s.blk.result with
      url := s.blk.result.url.writeBytes s.urlCursor chars
      urlLen := BitVec.ofNat 7 (s.urlCursor + chars.length) })
  else .error (.fault .urlBankOverflow)

/-- Begins a text with prefix `k` (R143, R146 first line): the prefix is the first thing emitted, so the text starts
from an empty `R_URL`. -/
def emitPrefix (k : Nat) (s : State) : Except Stop State :=
  emit (prefixRom k) (s.setResult { s.blk.result with url := [], urlLen := 0 })

/-- Appends the suffix string of code `k` (R144). -/
def emitSuffix (k : Nat) (s : State) : Except Stop State := emit (suffixRom k) s

/-! ### The scheme rows (30_encoding.md R78) -/

/-- `URL.PFX0` (R143): `http://www.`. -/
def urlPfx0 (s : State) : Except Stop State := emitPrefix 0 s

/-- `URL.PFX1` (R143): `https://www.`. -/
def urlPfx1 (s : State) : Except Stop State := emitPrefix 1 s

/-- `URL.PFX2` (R143): `http://`. -/
def urlPfx2 (s : State) : Except Stop State := emitPrefix 2 s

/-- `URL.PFX3` (R143): `https://`. -/
def urlPfx3 (s : State) : Except Stop State := emitPrefix 3 s

/-- `URL.PFXINVALID` (42_frame_decoder.md R123): a scheme byte of 4 or more. -/
def urlPfxinvalid (_b : Byte) (_s : State) : Except Stop State := raise .invalidScheme

/-! ### The symbol rows (30_encoding.md R79) -/

/-- `URL.SFX0` (R144): `.com/`. -/
def urlSfx0 (s : State) : Except Stop State := emitSuffix 0 s

/-- `URL.SFX1` (R144): `.org/`. -/
def urlSfx1 (s : State) : Except Stop State := emitSuffix 1 s

/-- `URL.SFX2` (R144): `.edu/`. -/
def urlSfx2 (s : State) : Except Stop State := emitSuffix 2 s

/-- `URL.SFX3` (R144): `.net/`. -/
def urlSfx3 (s : State) : Except Stop State := emitSuffix 3 s

/-- `URL.SFX4` (R144): `.info/`. -/
def urlSfx4 (s : State) : Except Stop State := emitSuffix 4 s

/-- `URL.SFX5` (R144): `.biz/`. -/
def urlSfx5 (s : State) : Except Stop State := emitSuffix 5 s

/-- `URL.SFX6` (R144): `.gov/`. -/
def urlSfx6 (s : State) : Except Stop State := emitSuffix 6 s

/-- `URL.SFX7` (R144): `.com`. -/
def urlSfx7 (s : State) : Except Stop State := emitSuffix 7 s

/-- `URL.SFX8` (R144): `.org`. -/
def urlSfx8 (s : State) : Except Stop State := emitSuffix 8 s

/-- `URL.SFX9` (R144): `.edu`. -/
def urlSfx9 (s : State) : Except Stop State := emitSuffix 9 s

/-- `URL.SFX10` (R144): `.net`. -/
def urlSfx10 (s : State) : Except Stop State := emitSuffix 10 s

/-- `URL.SFX11` (R144): `.info`. -/
def urlSfx11 (s : State) : Except Stop State := emitSuffix 11 s

/-- `URL.SFX12` (R144): `.biz`. -/
def urlSfx12 (s : State) : Except Stop State := emitSuffix 12 s

/-- `URL.SFX13` (R144): `.gov`. -/
def urlSfx13 (s : State) : Except Stop State := emitSuffix 13 s

/-- `URL.LIT` (R145): the byte itself is the one character, with no test that it is printable. -/
def urlLit (c : Byte) (s : State) : Except Stop State := emit [c] s

/-- Dispatch on a row of the scheme map or the symbol map (R78, R79). -/
def runUrlRow (i : Instr) (s : State) : Except Stop State :=
  match i with
  | .urlPfx0 => urlPfx0 s
  | .urlPfx1 => urlPfx1 s
  | .urlPfx2 => urlPfx2 s
  | .urlPfx3 => urlPfx3 s
  | .urlPfxinvalid b => urlPfxinvalid b s
  | .urlSfx0 => urlSfx0 s
  | .urlSfx1 => urlSfx1 s
  | .urlSfx2 => urlSfx2 s
  | .urlSfx3 => urlSfx3 s
  | .urlSfx4 => urlSfx4 s
  | .urlSfx5 => urlSfx5 s
  | .urlSfx6 => urlSfx6 s
  | .urlSfx7 => urlSfx7 s
  | .urlSfx8 => urlSfx8 s
  | .urlSfx9 => urlSfx9 s
  | .urlSfx10 => urlSfx10 s
  | .urlSfx11 => urlSfx11 s
  | .urlSfx12 => urlSfx12 s
  | .urlSfx13 => urlSfx13 s
  | .urlLit c => urlLit c s
  | _ => .error (.fault .wrongFormat)

/-- The loop of R146 over the body, in increasing index. -/
def emitBody : List Byte → State → Except Stop State
  | [], s => .ok s
  | b :: rest, s => do
    let t ← runUrlRow (decodeByte .sym b) s
    emitBody rest t

/-- `url_decode` with its result in `R_URL`, `R_URL_LEN` (R146): the row of the scheme byte, then a row for each body
byte. A scheme byte above 3 raises `InvalidScheme` before any character is emitted (R123, R186). -/
def runUrl (scheme : Byte) (body : List Byte) (s : State) : Except Stop State := do
  let t ← runUrlRow (decodeByte .scheme scheme) s
  emitBody body t

/-! ### The encoder (R149 to R154) -/

/-- `matches(str, text, i)` on the text from `i` on: a string that would run past the end does not match (R150). -/
def matchesAt (str rest : List Byte) : Bool := str.isPrefixOf rest

/-- The prefix entries in the order they are tried, longest first (R151). -/
def prefixOrder : List Nat := [1, 0, 3, 2]

/-- The index of the longest prefix the text begins with (R151). -/
def longestPrefix (text : List Byte) : Option Nat :=
  prefixOrder.find? fun k => matchesAt (prefixRom k) text

/-- One candidate of the search for the longest suffix: entry `k` replaces the best so far if it matches and is
longer. -/
def betterSuffix (rest : List Byte) (best : Option Nat) (k : Nat) : Option Nat :=
  if matchesAt (suffixRom k) rest then
    match best with
    | none => some k
    | some j => if (suffixRom j).length < (suffixRom k).length then some k else some j
  else best

/-- The index of the longest suffix entry that matches here (R152). -/
def longestSuffix (rest : List Byte) : Option Nat :=
  (List.range Config.nSuffix).foldl (betterSuffix rest) none

/-- The loop of R150 over the text after the prefix. `skip` counts the characters of a matched suffix still to pass
over, which is the step of the input cursor; `o` counts the body bytes written. The checks at one position: a
character below 14 that starts no suffix, then a 17th body byte. -/
def encodeBody : List Byte → Nat → Nat → Except ErrorKind (List Byte)
  | [], _, _ => .ok []
  | _ :: rest, skip + 1, o => encodeBody rest skip o
  | c :: rest, 0, o =>
    match longestSuffix (c :: rest) with
    | some k =>
      if o = Config.urlBodyMax then .error .lengthMismatch
      else do
        let body ← encodeBody rest ((suffixRom k).length - 1) (o + 1)
        return BitVec.ofNat 8 k :: body
    | none =>
      if c.toNat < Config.nSuffix then .error .invalidArgument
      else if o = Config.urlBodyMax then .error .lengthMismatch
      else do
        let body ← encodeBody rest 0 (o + 1)
        return c :: body

/-- `url_encode` (R150): the prefix index and the body bytes, or the first error. -/
def urlEncode (text : List Byte) : Except ErrorKind (Nat × List Byte) :=
  if text.length = 0 then .error .invalidArgument
  else
    match longestPrefix text with
    | none => .error .invalidScheme
    | some s => do
      let body ← encodeBody (text.drop (prefixRom s).length) 0 0
      return (s, body)

/-- The encoded URL as bytes: the prefix index, then the body (R150, R187). -/
def encodedUrlBytes (r : Nat × List Byte) : List Byte := BitVec.ofNat 8 r.1 :: r.2

/-! ### The meanings of the rows on their own -/

/-- The meaning of `URL.PFX0` on its own. -/
def execUrlPfx0 (s : State) : Host.Outcome State Fault Refusal := finishRow s (urlPfx0 s)

/-- The meaning of `URL.PFX1` on its own. -/
def execUrlPfx1 (s : State) : Host.Outcome State Fault Refusal := finishRow s (urlPfx1 s)

/-- The meaning of `URL.PFX2` on its own. -/
def execUrlPfx2 (s : State) : Host.Outcome State Fault Refusal := finishRow s (urlPfx2 s)

/-- The meaning of `URL.PFX3` on its own. -/
def execUrlPfx3 (s : State) : Host.Outcome State Fault Refusal := finishRow s (urlPfx3 s)

/-- The meaning of `URL.PFXINVALID` on its own: it raises `InvalidScheme`. -/
def execUrlPfxinvalid (b : Byte) (s : State) : Host.Outcome State Fault Refusal := finishRow s (urlPfxinvalid b s)

/-- The meaning of `URL.SFX0` on its own. -/
def execUrlSfx0 (s : State) : Host.Outcome State Fault Refusal := finishRow s (urlSfx0 s)

/-- The meaning of `URL.SFX1` on its own. -/
def execUrlSfx1 (s : State) : Host.Outcome State Fault Refusal := finishRow s (urlSfx1 s)

/-- The meaning of `URL.SFX2` on its own. -/
def execUrlSfx2 (s : State) : Host.Outcome State Fault Refusal := finishRow s (urlSfx2 s)

/-- The meaning of `URL.SFX3` on its own. -/
def execUrlSfx3 (s : State) : Host.Outcome State Fault Refusal := finishRow s (urlSfx3 s)

/-- The meaning of `URL.SFX4` on its own. -/
def execUrlSfx4 (s : State) : Host.Outcome State Fault Refusal := finishRow s (urlSfx4 s)

/-- The meaning of `URL.SFX5` on its own. -/
def execUrlSfx5 (s : State) : Host.Outcome State Fault Refusal := finishRow s (urlSfx5 s)

/-- The meaning of `URL.SFX6` on its own. -/
def execUrlSfx6 (s : State) : Host.Outcome State Fault Refusal := finishRow s (urlSfx6 s)

/-- The meaning of `URL.SFX7` on its own. -/
def execUrlSfx7 (s : State) : Host.Outcome State Fault Refusal := finishRow s (urlSfx7 s)

/-- The meaning of `URL.SFX8` on its own. -/
def execUrlSfx8 (s : State) : Host.Outcome State Fault Refusal := finishRow s (urlSfx8 s)

/-- The meaning of `URL.SFX9` on its own. -/
def execUrlSfx9 (s : State) : Host.Outcome State Fault Refusal := finishRow s (urlSfx9 s)

/-- The meaning of `URL.SFX10` on its own. -/
def execUrlSfx10 (s : State) : Host.Outcome State Fault Refusal := finishRow s (urlSfx10 s)

/-- The meaning of `URL.SFX11` on its own. -/
def execUrlSfx11 (s : State) : Host.Outcome State Fault Refusal := finishRow s (urlSfx11 s)

/-- The meaning of `URL.SFX12` on its own. -/
def execUrlSfx12 (s : State) : Host.Outcome State Fault Refusal := finishRow s (urlSfx12 s)

/-- The meaning of `URL.SFX13` on its own. -/
def execUrlSfx13 (s : State) : Host.Outcome State Fault Refusal := finishRow s (urlSfx13 s)

/-- The meaning of `URL.LIT` on its own. -/
def execUrlLit (c : Byte) (s : State) : Host.Outcome State Fault Refusal := finishRow s (urlLit c s)

end Sys2Proof.Machine
end

