-- ==== Sys2Proof/Machine/FrameDecoder.lean ====
section
/-! DEFINITION. The frame decoders and their dispatcher (42_frame_decoder.md). The operand of a frame row is the
payload slice `P = IN_BUF[POS .. IN_LEN)`. -/

namespace Sys2Proof.Machine

/-- `FRAME.UID` (R122): 17 bytes, or 19 with the reserved pair; `R_RSVD` is 0, 0 when the pair is absent (R21). -/
def frameUid (s : State) : Except Stop State := do
  let p := s.payload
  require (p.length == Config.uidLenShort || p.length == Config.uidLenLong) .lengthMismatch
  return s.setResult { s.blk.result with
    kind := 1
    txpower := byteAt p 0
    nspace := Memory.writeBytes [] 0 ((p.drop 1).take 10)
    inst := Memory.writeBytes [] 0 ((p.drop 11).take 6)
    rsvdPresent := presence (p.length == Config.uidLenLong)
    rsvd := Memory.writeBytes [] 0 (p.drop 17) }

/-- `FRAME.URL` (R123, R124): the length is tested before the scheme. -/
def frameUrl (s : State) : Except Stop State := do
  let p := s.payload
  require (Config.urlPayloadMin ≤ p.length) .lengthMismatch
  require (p.length - 1 ≤ Config.urlEncMax) .lengthMismatch
  runUrl (byteAt p 1) (p.drop 2) (s.setResult { s.blk.result with kind := 2, txpower := byteAt p 0 })

/-- `FRAME.TLM` (R125): 13 bytes, or 14 of which the last is ignored; multi-byte fields are big-endian. -/
def frameTlm (s : State) : Except Stop State := do
  let p := s.payload
  require (p.length ≤ Config.tlmLenMax) .lengthMismatch
  require (Config.tlmLenMin ≤ p.length) .lengthMismatch
  return s.setResult { s.blk.result with
    kind := 3
    version := byteAt p 0
    vbatt := be16 (byteAt p 1) (byteAt p 2)
    tempInt := byteAt p 3
    tempFrac := byteAt p 4
    advCount := be32 (byteAt p 5) (byteAt p 6) (byteAt p 7) (byteAt p 8)
    time := be32 (byteAt p 9) (byteAt p 10) (byteAt p 11) (byteAt p 12) }

/-- `FRAME.INVALID` (R121): any other frame type, whatever the payload. -/
def frameInvalid (_ft : Byte) (_s : State) : Except Stop State := raise .invalidFrameType

/-- Dispatch on a row of the frame-type map (R120). -/
def runFrameRow (i : Instr) (s : State) : Except Stop State :=
  match i with
  | .frameUid => frameUid s
  | .frameUrl => frameUrl s
  | .frameTlm => frameTlm s
  | .frameInvalid ft => frameInvalid ft s
  | _ => .error (.fault .wrongFormat)

/-- `frame_decode` on the payload slice: the whole byte is dispatched on before the length is looked at (R120). -/
def runFrame (ft : Byte) (s : State) : Except Stop State := runFrameRow (decodeByte .frame ft) s

/-- The meaning of `FRAME.UID` on its own. -/
def execFrameUid (s : State) : Host.Outcome State Fault Refusal := finishRow s (frameUid s)

/-- The meaning of `FRAME.URL` on its own. -/
def execFrameUrl (s : State) : Host.Outcome State Fault Refusal := finishRow s (frameUrl s)

/-- The meaning of `FRAME.TLM` on its own. -/
def execFrameTlm (s : State) : Host.Outcome State Fault Refusal := finishRow s (frameTlm s)

/-- The meaning of `FRAME.INVALID` on its own: it raises `InvalidFrameType`. -/
def execFrameInvalid (ft : Byte) (s : State) : Host.Outcome State Fault Refusal := finishRow s (frameInvalid ft s)

end Sys2Proof.Machine
end

