-- ==== Sys2Proof/Machine/FrameEncoder.lean ====
section
/-! DEFINITION. The packet builder (44_frame_encoder.md), and the payload layouts of the host's side (R174 to R176),
which add no behaviour of the block. -/

namespace Sys2Proof.Machine

/-- The packet of R68 and R171 for frame type `ft` and payload `p`: the Flags structure, the UUID list, the
service-data structure with length byte `overhead + n` (R173), the payload verbatim. -/
def packetBytes (overhead : Nat) (ft : Byte) (p : List Byte) : List Byte :=
  [0x02, 0x01, Config.flagsValue] ++ [0x03, 0x03, 0xAA, 0xFE]
    ++ [BitVec.ofNat 8 (overhead + p.length), 0x16, 0xAA, 0xFE, ft] ++ p

/-- `build_packet` (R171, R172) with `SD_LEN_OVERHEAD` as an argument: an empty payload is `InvalidArgument`;
otherwise the frame decoder is run for its verdict only, and its decoded fields are discarded. -/
def buildPacket (overhead : Nat) (s : State) : Except Stop State := do
  require (s.len != 0) .invalidArgument
  let _ ← runFrame s.host.arg s
  return s.setOut (packetBytes overhead s.host.arg s.payload)

/-- A UID payload from its fields (R174); the reserved pair is optional. -/
def layoutUid (ranging : Byte) (ns inst : List Byte) (rsvd : Option (Byte × Byte)) : List Byte :=
  ranging :: (ns ++ inst ++ match rsvd with
    | some (a, b) => [a, b]
    | none => [])

/-- A URL payload from the transmit power and an encoded URL (R175). -/
def layoutUrl (txPower prefixIndex : Byte) (body : List Byte) : List Byte := txPower :: prefixIndex :: body

/-- The bytes of a 16-bit number, high byte first. -/
def bytesBe16 (v : BitVec 16) : List Byte := [v.extractLsb' 8 8, v.extractLsb' 0 8]

/-- The bytes of a 32-bit number, high byte first. -/
def bytesBe32 (v : BitVec 32) : List Byte :=
  [v.extractLsb' 24 8, v.extractLsb' 16 8, v.extractLsb' 8 8, v.extractLsb' 0 8]

/-- A TLM payload from its fields (R176), 13 bytes, high byte first in every multi-byte field. -/
def layoutTlm (version : Byte) (vbatt : BitVec 16) (hi lo : Byte) (adv time : BitVec 32) : List Byte :=
  version :: (bytesBe16 vbatt ++ [hi, lo] ++ bytesBe32 adv ++ bytesBe32 time)

end Sys2Proof.Machine
end

