-- ==== Sys2Proof/Machine/Scanner.lean ====
section
/-! DEFINITION. The AD-structure walker (41_ad_scanner.md): the four structure rows and the scan loop. -/

namespace Sys2Proof.Machine

/-- `AD.FLAGS` (R103): stores the flags byte whole and goes to the next structure by the declared length (R102). -/
def adFlags (s : State) : Except Stop State := do
  let l ← adStructure s
  require (s.cursor + 2 < s.len) .boundsViolation
  let h := { s.blk.header with flags := s.inByte (s.cursor + 2), flagsValid := presence true }
  return (s.setHeader h).setPos (s.cursor + 1 + l)

/-- `AD.UUID16` (R104): the first UUID of the list must be the beacon's. -/
def adUuid16 (s : State) : Except Stop State := do
  let l ← adStructure s
  require (s.cursor + 3 < s.len) .boundsViolation
  let u := le16 (s.inByte (s.cursor + 2)) (s.inByte (s.cursor + 3))
  require (u == Config.beaconUuid) .notABeaconAdvertisement
  return (s.setHeader { s.blk.header with svcUuid := u }).setPos (s.cursor + 1 + l)

/-- `AD.SVCDATA16` (R105): the UUID, then the frame type; the cursor moves by the fixed 5, past the frame-type byte. -/
def adSvcdata16 (s : State) : Except Stop State := do
  let _ ← adStructure s
  require (s.cursor + 4 < s.len) .boundsViolation
  let u := le16 (s.inByte (s.cursor + 2)) (s.inByte (s.cursor + 3))
  require (u == Config.beaconUuid) .notABeaconAdvertisement
  let ft := s.inByte (s.cursor + 4)
  require (isFrameType ft) .invalidFrameType
  return (s.setHeader { s.blk.header with svcDataType := u, frameType := ft }).setPos (s.cursor + 5)

/-- `AD.SKIP` (R106): any other type is passed over by its declared length and changes no header register. -/
def adSkip (_t : Byte) (s : State) : Except Stop State := do
  let l ← adStructure s
  return s.setPos (s.cursor + 1 + l)

/-- Dispatch on a row of the AD type map (R101 step 6). -/
def runAdRow (i : Instr) (s : State) : Except Stop State :=
  match i with
  | .adFlags => adFlags s
  | .adUuid16 => adUuid16 s
  | .adSvcdata16 => adSvcdata16 s
  | .adSkip t => adSkip t s
  | _ => .error (.fault .wrongFormat)

/-- Fetch (R101 steps 1 to 5): the row of the type byte of the structure at `POS`, once the structure is known to
fit. -/
def fetchAd (s : State) : Except Stop Instr := do
  let _ ← adStructure s
  return decodeByte .ad (s.inByte (s.cursor + 1))

/-- The loop of R100: iterations of R101 until one ends the scan. The number is the bound of R110. -/
def scanLoop : Nat → State → Except Stop State
  | 0, _ => .error (.fault .scanUnbounded)
  | n + 1, s => do
    let i ← fetchAd s
    let t ← runAdRow i s
    if i = .adSvcdata16 then return t else scanLoop n t

/-- `scan` from the cleared header and cursor (R100, R111). -/
def scan (s : State) : Except Stop State := scanLoop Config.scanIterations s

/-- The meaning of `AD.FLAGS` on its own. -/
def execAdFlags (s : State) : Host.Outcome State Fault Refusal := finishRow s (adFlags s)

/-- The meaning of `AD.UUID16` on its own. -/
def execAdUuid16 (s : State) : Host.Outcome State Fault Refusal := finishRow s (adUuid16 s)

/-- The meaning of `AD.SVCDATA16` on its own. -/
def execAdSvcdata16 (s : State) : Host.Outcome State Fault Refusal := finishRow s (adSvcdata16 s)

/-- The meaning of `AD.SKIP` on its own. -/
def execAdSkip (t : Byte) (s : State) : Host.Outcome State Fault Refusal := finishRow s (adSkip t s)

end Sys2Proof.Machine
end

