-- ==== Sys2Proof/Machine/Commands.lean ====
section
/-! DEFINITION. The host commands (45_host_commands.md): each is clear, run, report (R182) around the functions of the
units. -/

namespace Sys2Proof.Machine

/-- `CMD_DECODE` (R183, 42_frame_decoder.md R128): the scan, then the frame decoder on what the scan found. -/
def cmdDecode (s : State) : Except Stop State := do
  require (s.len != 0) .invalidArgument
  let t ← scan s
  runFrame t.blk.header.frameType t

/-- `CMD_SCAN` (R184): the scanner alone; `R_KIND` stays 0. -/
def cmdScan (s : State) : Except Stop State := do
  require (s.len != 0) .invalidArgument
  scan s

/-- `CMD_FRAME` (R185): the frame decoder on `ARG` and `IN_BUF[0 .. IN_LEN)`, with no zero-length test of its own. -/
def cmdFrame (s : State) : Except Stop State := runFrame s.host.arg s

/-- `CMD_URLDEC` (R186): the body limit, then the prefix index; `R_KIND` stays 0. -/
def cmdUrldec (s : State) : Except Stop State := do
  require (s.len ≤ Config.urlBodyMax) .lengthMismatch
  runUrl s.host.arg s.payload s

/-- `CMD_URLENC` (R187): the encoded URL goes to `OUT_BUF`. -/
def cmdUrlenc (s : State) : Except Stop State :=
  match urlEncode s.text with
  | .ok r => .ok (s.setOut (encodedUrlBytes r))
  | .error e => raise e

/-- `CMD_BUILD` (R188): the packet goes to `OUT_BUF`; `H_*` and `R_*` stay 0. -/
def cmdBuild (s : State) : Except Stop State := buildPacket Config.sdLenOverhead s

/-- `CMD_RESERVED` (R189): a reserved code is a command that raises `InvalidArgument`. -/
def cmdReserved (_code : Byte) (_s : State) : Except Stop State := raise .invalidArgument

/-- The meaning of `CMD_DECODE`. -/
def execCmdDecode (s : State) : Host.Outcome State Fault Refusal := runCommand s cmdDecode

/-- The meaning of `CMD_SCAN`. -/
def execCmdScan (s : State) : Host.Outcome State Fault Refusal := runCommand s cmdScan

/-- The meaning of `CMD_FRAME`. -/
def execCmdFrame (s : State) : Host.Outcome State Fault Refusal := runCommand s cmdFrame

/-- The meaning of `CMD_URLDEC`. -/
def execCmdUrldec (s : State) : Host.Outcome State Fault Refusal := runCommand s cmdUrldec

/-- The meaning of `CMD_URLENC`. -/
def execCmdUrlenc (s : State) : Host.Outcome State Fault Refusal := runCommand s cmdUrlenc

/-- The meaning of `CMD_BUILD`. -/
def execCmdBuild (s : State) : Host.Outcome State Fault Refusal := runCommand s cmdBuild

/-- The meaning of `CMD_RESERVED`. -/
def execCmdReserved (code : Byte) (s : State) : Host.Outcome State Fault Refusal := runCommand s (cmdReserved code)

end Sys2Proof.Machine
end

