-- ==== Sys2Proof/Machine/Dispatch.lean ====
section
/-! DEFINITION. exec: one arm per constructor of Instr, each one direct call of the instruction's meaning. -/

namespace Sys2Proof.Machine

def exec (i : Instr) (s : State) : Host.Outcome State Fault Refusal :=
  match i with
  | .adFlags => Sys2Proof.Machine.execAdFlags s
  | .adUuid16 => Sys2Proof.Machine.execAdUuid16 s
  | .adSvcdata16 => Sys2Proof.Machine.execAdSvcdata16 s
  | .adSkip t => Sys2Proof.Machine.execAdSkip t s
  | .frameUid => Sys2Proof.Machine.execFrameUid s
  | .frameUrl => Sys2Proof.Machine.execFrameUrl s
  | .frameTlm => Sys2Proof.Machine.execFrameTlm s
  | .frameInvalid ft => Sys2Proof.Machine.execFrameInvalid ft s
  | .urlPfx0 => Sys2Proof.Machine.execUrlPfx0 s
  | .urlPfx1 => Sys2Proof.Machine.execUrlPfx1 s
  | .urlPfx2 => Sys2Proof.Machine.execUrlPfx2 s
  | .urlPfx3 => Sys2Proof.Machine.execUrlPfx3 s
  | .urlPfxinvalid b => Sys2Proof.Machine.execUrlPfxinvalid b s
  | .urlSfx0 => Sys2Proof.Machine.execUrlSfx0 s
  | .urlSfx1 => Sys2Proof.Machine.execUrlSfx1 s
  | .urlSfx2 => Sys2Proof.Machine.execUrlSfx2 s
  | .urlSfx3 => Sys2Proof.Machine.execUrlSfx3 s
  | .urlSfx4 => Sys2Proof.Machine.execUrlSfx4 s
  | .urlSfx5 => Sys2Proof.Machine.execUrlSfx5 s
  | .urlSfx6 => Sys2Proof.Machine.execUrlSfx6 s
  | .urlSfx7 => Sys2Proof.Machine.execUrlSfx7 s
  | .urlSfx8 => Sys2Proof.Machine.execUrlSfx8 s
  | .urlSfx9 => Sys2Proof.Machine.execUrlSfx9 s
  | .urlSfx10 => Sys2Proof.Machine.execUrlSfx10 s
  | .urlSfx11 => Sys2Proof.Machine.execUrlSfx11 s
  | .urlSfx12 => Sys2Proof.Machine.execUrlSfx12 s
  | .urlSfx13 => Sys2Proof.Machine.execUrlSfx13 s
  | .urlLit c => Sys2Proof.Machine.execUrlLit c s
  | .cmdDecode => Sys2Proof.Machine.execCmdDecode s
  | .cmdScan => Sys2Proof.Machine.execCmdScan s
  | .cmdFrame => Sys2Proof.Machine.execCmdFrame s
  | .cmdUrldec => Sys2Proof.Machine.execCmdUrldec s
  | .cmdUrlenc => Sys2Proof.Machine.execCmdUrlenc s
  | .cmdBuild => Sys2Proof.Machine.execCmdBuild s
  | .cmdReserved code => Sys2Proof.Machine.execCmdReserved code s

end Sys2Proof.Machine
end

