-- ==== Sys2Proof/Machine/HostPort.lean ====
section
/-! DEFINITION. The host's side of the block (10_state.md R10, 20_memory.md R48, 70_reset_and_hazards.md R220): what
each host event does, what a read gives, and how the next event is taken. -/

namespace Sys2Proof.Machine

/-- What a read of a register or bank byte gives, as a number (R10, R43): a multi-byte register holds a number and has
no byte order of its own. -/
def State.hostRead (s : State) : HostReg → Nat
  | .inBuf i => (s.host.inBuf.read i).toNat
  | .inLen => s.host.inLen.toNat
  | .arg => s.host.arg.toNat
  | .txtIn i => (s.host.txtIn.read i).toNat
  | .txtInLen => s.host.txtInLen.toNat
  | .cmd => s.host.cmd.toNat
  | .status => s.blk.status.toNat
  | .errCode => s.blk.errCode.toNat
  | .pos => s.blk.pos.toNat
  | .hFlagsValid => s.blk.header.flagsValid.toNat
  | .hFlags => s.blk.header.flags.toNat
  | .hSvcUuid => s.blk.header.svcUuid.toNat
  | .hSvcDataType => s.blk.header.svcDataType.toNat
  | .hFrameType => s.blk.header.frameType.toNat
  | .rKind => s.blk.result.kind.toNat
  | .rTxpower => s.blk.result.txpower.toNat
  | .rNamespace i => (s.blk.result.nspace.read i).toNat
  | .rInstance i => (s.blk.result.inst.read i).toNat
  | .rRsvdPresent => s.blk.result.rsvdPresent.toNat
  | .rRsvd i => (s.blk.result.rsvd.read i).toNat
  | .rUrl i => (s.blk.result.url.read i).toNat
  | .rUrlLen => s.blk.result.urlLen.toNat
  | .rVersion => s.blk.result.version.toNat
  | .rVbatt => s.blk.result.vbatt.toNat
  | .rTempInt => s.blk.result.tempInt.toNat
  | .rTempFrac => s.blk.result.tempFrac.toNat
  | .rAdvCount => s.blk.result.advCount.toNat
  | .rTime => s.blk.result.time.toNat
  | .outBuf i => (s.blk.outBuf.read i).toNat
  | .outLen => s.blk.outLen.toNat

/-- The host-written registers after a reset that leaves the given bytes in the two input banks (R29, R221). Bytes
past a bank's end are not there to be left. -/
def HostRegs.afterReset (inBytes txtBytes : List Byte) : HostRegs :=
  { HostRegs.atReset with
    inBuf := Memory.writeBytes [] 0 (inBytes.take Config.inBufSize)
    txtIn := Memory.writeBytes [] 0 (txtBytes.take Config.txtInSize) }

/-- Reset (R220, R221): the whole effect, from any state, at once. -/
def State.resetWith (s : State) (inBytes txtBytes : List Byte) : State :=
  (s.setHost (HostRegs.afterReset inBytes txtBytes)).setBlk BlockRegs.cleared

/-- The effect of a host event other than the command a `CMD` write runs: a write changes its own register or byte
only, a read changes nothing (R45, R48). The `CMD` write stores the value (R14); running the command is the step's. -/
def HostEvent.apply (e : HostEvent) (s : State) : State :=
  match e with
  | .writeInBuf i b => s.setHost { s.host with inBuf := s.host.inBuf.write i b }
  | .writeInLen n => s.setHost { s.host with inLen := n }
  | .writeArg b => s.setHost { s.host with arg := b }
  | .writeTxtIn i b => s.setHost { s.host with txtIn := s.host.txtIn.write i b }
  | .writeTxtInLen n => s.setHost { s.host with txtInLen := n }
  | .writeCmd c => s.setCmd c
  | .read _ => s
  | .reset inBytes txtBytes => s.resetWith inBytes txtBytes

/-- What a step finds at the host's side. -/
inductive Fetched where
  /-- no event: the block has no step of its own (R10) -/
  | idle
  /-- an access or a reset, already applied -/
  | access (s : State)
  /-- a write to `CMD`: the instruction it selects, and the state it runs in -/
  | command (i : Instr) (s : State)
deriving DecidableEq, Repr

/-- Takes the oldest host event. A `CMD` write selects the command on all 8 bits of the value written (R181). -/
def fetch (s : State) : Fetched :=
  match s.pending with
  | [] => .idle
  | e :: rest =>
    let t := e.apply { s with pending := rest }
    match e with
    | .writeCmd c => .command (decodeByte .cmd c) t
    | _ => .access t

end Sys2Proof.Machine
end

