-- ==== Sys2Proof/Machine/Step.lean ====
section
/-! DEFINITION. One step: the oldest pending host event. A write to `CMD` runs its command, whole (45_host_commands.md
R180). -/

namespace Sys2Proof.Machine

/-- One event of the single order of events of 20_memory.md R48. With no event pending nothing happens (R10). -/
def step (s : State) : Host.Outcome State Fault Refusal :=
  match fetch s with
  | .idle => .next s
  | .access t => .next t
  | .command i t => exec i t

/-- `s` with a write of `w` to `CMD` as the host's next event: the block's only way to be given an instruction (R14,
log 1). -/
def State.withFetchWord (s : State) (_nbits w : Nat) : State :=
  { s with pending := .writeCmd (BitVec.ofNat 8 w) :: s.pending }

end Sys2Proof.Machine
end

