-- ==== Sys2Proof/Machine/Functions.lean ====
section
/-! DEFINITION. The pure functions over byte strings in which the spec writes the semantics (00_scope.md section 5.3):
`scan` (R111), `frame_decode` (R120 to R125), `decode` (R128), `url_decode` (R146), `build_packet` (R171). The commands
run the rows on the state; that they compute these functions is what the statements about the commands say.
`url_encode` (R150) is the function the command itself calls, `urlEncode` of Machine/UrlCodec.lean. -/

namespace Sys2Proof.Machine

/-! ### The functions -/

/-- The loop of `scan(B, n)` (R111) with the header so far and the cursor. The first number only bounds the recursion:
an iteration that goes on passes at least two bytes (R110), so more than the length is never needed. -/
def scanBytesFrom (b : List Byte) : Nat → Nat → Header → Except ErrorKind (Header × Nat)
  | 0, _, _ => .error .notABeaconAdvertisement
  | k + 1, p, h =>
    let n := b.length
    let l := (byteAt b p).toNat
    let t := byteAt b (p + 1)
    let u := le16 (byteAt b (p + 2)) (byteAt b (p + 3))
    if p ≥ n then .error .notABeaconAdvertisement
    else if l = 0 then .error .notABeaconAdvertisement
    else if p + 1 + l > n then .error .boundsViolation
    else if t = 0x01 then
      if p + 2 ≥ n then .error .boundsViolation
      else scanBytesFrom b k (p + 1 + l) { h with flags := byteAt b (p + 2), flagsValid := 1 }
    else if t = 0x03 then
      if p + 3 ≥ n then .error .boundsViolation
      else if u ≠ 0xFEAA then .error .notABeaconAdvertisement
      else scanBytesFrom b k (p + 1 + l) { h with svcUuid := u }
    else if t = 0x16 then
      if p + 4 ≥ n then .error .boundsViolation
      else if u ≠ 0xFEAA then .error .notABeaconAdvertisement
      else
        let ft := byteAt b (p + 4)
        if ft ≠ 0x00 ∧ ft ≠ 0x10 ∧ ft ≠ 0x20 then .error .invalidFrameType
        else .ok ({ h with svcDataType := u, frameType := ft }, p + 5)
    else scanBytesFrom b k (p + 1 + l) h

/-- `scan(B, n)` (R111): the header and the position just past the frame-type byte, or one error. -/
def scanBytes (b : List Byte) : Except ErrorKind (Header × Nat) :=
  scanBytesFrom b (b.length + 1) 0 Header.cleared

/-- The text of one body byte (R144, R145). -/
def symbolText (b : Byte) : List Byte := if b.toNat < 14 then suffixRom b.toNat else [b]

/-- `url_decode(s, body)` (R146): the prefix, then the text of each body byte in order. -/
def urlDecode (s : Nat) (body : List Byte) : List Byte := prefixRom s ++ body.flatMap symbolText

/-- Result registers that hold a decoded text and are cleared otherwise (R146, R21). -/
def FrameResult.ofText (text : List Byte) : FrameResult :=
  { FrameResult.cleared with url := Memory.writeBytes [] 0 text, urlLen := BitVec.ofNat 7 text.length }

/-- `frame_decode(ft, P)` (R120 to R125): the result registers of the variant, or one error. -/
def frameDecode (ft : Byte) (p : List Byte) : Except ErrorKind FrameResult :=
  let m := p.length
  if ft = 0x00 then
    if m ≠ 17 ∧ m ≠ 19 then .error .lengthMismatch
    else .ok { FrameResult.cleared with
      kind := 1
      txpower := byteAt p 0
      nspace := Memory.writeBytes [] 0 ((p.drop 1).take 10)
      inst := Memory.writeBytes [] 0 ((p.drop 11).take 6)
      rsvdPresent := if m = 19 then 1 else 0
      rsvd := if m = 19 then Memory.writeBytes [] 0 [byteAt p 17, byteAt p 18] else [] }
  else if ft = 0x10 then
    if m < 2 then .error .lengthMismatch
    else if m - 1 > 17 then .error .lengthMismatch
    else if (byteAt p 1).toNat > 3 then .error .invalidScheme
    else .ok { FrameResult.ofText (urlDecode (byteAt p 1).toNat (p.drop 2)) with kind := 2, txpower := byteAt p 0 }
  else if ft = 0x20 then
    if m > 14 then .error .lengthMismatch
    else if m < 13 then .error .lengthMismatch
    else .ok { FrameResult.cleared with
      kind := 3
      version := byteAt p 0
      vbatt := be16 (byteAt p 1) (byteAt p 2)
      tempInt := byteAt p 3
      tempFrac := byteAt p 4
      advCount := be32 (byteAt p 5) (byteAt p 6) (byteAt p 7) (byteAt p 8)
      time := be32 (byteAt p 9) (byteAt p 10) (byteAt p 11) (byteAt p 12) }
  else .error .invalidFrameType

/-- `decode(B, n)` (R128): the scan, then the frame decoder on the payload slice, to the end of the buffer (R54). -/
def decodeBytes (b : List Byte) : Except ErrorKind (Header × Nat × FrameResult) :=
  if b.length = 0 then .error .invalidArgument
  else
    match scanBytes b with
    | .error e => .error e
    | .ok (h, p) =>
      match frameDecode h.frameType (b.drop p) with
      | .error e => .error e
      | .ok r => .ok (h, p, r)

/-- `build_packet(ft, P)` (R171) with `SD_LEN_OVERHEAD` as an argument. -/
def buildBytes (overhead : Nat) (ft : Byte) (p : List Byte) : Except ErrorKind (List Byte) :=
  if p.length = 0 then .error .invalidArgument
  else
    match frameDecode ft p with
    | .error e => .error e
    | .ok _ => .ok (packetBytes overhead ft p)

/-! ### The register binding (45_host_commands.md) -/

/-- `IN_BUF[0 .. IN_LEN)`. -/
def State.inBytes (s : State) : List Byte := s.host.inBuf.readBytes 0 s.len

/-- The state after a command that ended in success with the given results in otherwise cleared registers (R182). -/
def State.succeed (s : State) (b : BlockRegs) : State := s.setBlk { b with status := statusDone }

/-- The block-written registers that hold a header and a position (R184). -/
def BlockRegs.ofScan (h : Header) (p : Nat) : BlockRegs :=
  { BlockRegs.cleared with header := h, pos := BitVec.ofNat 5 p }

/-- The block-written registers that hold a frame result (R185). -/
def BlockRegs.ofResult (r : FrameResult) : BlockRegs := { BlockRegs.cleared with result := r }

/-- The block-written registers that hold output bytes (R187, R188). -/
def BlockRegs.ofOut (bytes : List Byte) : BlockRegs :=
  { BlockRegs.cleared with outBuf := Memory.writeBytes [] 0 bytes, outLen := BitVec.ofNat 5 bytes.length }

end Sys2Proof.Machine
end

