-- ==== Sys2Proof/Safety.lean ====
section
/-! DEFINITION. The terms the statements are made in: the invariant of the registers, the classes of registers and
instructions, which command may end in which error. -/

namespace Sys2Proof.Machine

/-! ### The invariant -/

/-- `STATUS` and `ERR_CODE` (R15, R16): `ERR` only with `DONE`; before any command everything is cleared (R28); after
an error everything but the two is cleared and the code is 1 to 6 (R210); after a success the code is 0 (R212). -/
abbrev BlockRegs.StatusInv (b : BlockRegs) : Prop :=
  (b.status = 0 ∧ b = BlockRegs.cleared) ∨
  (b.status = 1 ∧ b.errCode = 0) ∨
  (b.status = 3 ∧ b = { BlockRegs.cleared with status := 3, errCode := b.errCode } ∧
    1 ≤ b.errCode.toNat ∧ b.errCode.toNat ≤ 6)

/-- `POS` and the header (R17, R19): either no scan result, all cleared, or a beacon's. -/
abbrev BlockRegs.HeaderInv (b : BlockRegs) : Prop :=
  (b.pos = 0 ∧ b.header = Header.cleared) ∨
  (5 ≤ b.pos.toNat ∧ b.header.svcDataType = 0xFEAA ∧ isFrameType b.header.frameType = true ∧
    (b.header.svcUuid = 0 ∨ b.header.svcUuid = 0xFEAA) ∧
    (b.header.flagsValid = 0 → b.header.flags = 0))

/-- The result registers (R21): only the registers of the variant `R_KIND` names hold anything. With `R_KIND = 0` the
text registers may hold what `CMD_URLDEC` left. -/
abbrev FrameResult.VariantInv (r : FrameResult) : Prop :=
  (r.kind = 0 ∧ r = { FrameResult.cleared with url := r.url, urlLen := r.urlLen }) ∨
  (r.kind = 1 ∧ r = { FrameResult.cleared with
    kind := 1, txpower := r.txpower, nspace := r.nspace, inst := r.inst, rsvdPresent := r.rsvdPresent,
    rsvd := r.rsvd } ∧ (r.rsvdPresent = 0 → r.rsvd = [])) ∨
  (r.kind = 2 ∧ r = { FrameResult.cleared with
    kind := 2, txpower := r.txpower, url := r.url, urlLen := r.urlLen }) ∨
  (r.kind = 3 ∧ r = { FrameResult.cleared with
    kind := 3, version := r.version, vbatt := r.vbatt, tempInt := r.tempInt, tempFrac := r.tempFrac,
    advCount := r.advCount, time := r.time })

/-- A bank in canonical form with nothing listed at or above `n`: it reads 0 there (R40, R53). -/
abbrev Memory.Within (m : Memory) (n : Nat) : Prop := m.wf = true ∧ m.below n = true

/-- The block-written banks: in their ranges, and 0 at and above the length registers (R21, R24, R53). A text that is
there has at least 7 characters (R21). -/
abbrev BlockRegs.BankInv (b : BlockRegs) : Prop :=
  b.result.nspace.Within 10 ∧ b.result.inst.Within 6 ∧ b.result.rsvd.Within 2 ∧
  b.result.url.Within b.result.urlLen.toNat ∧ b.result.urlLen.toNat ≤ 108 ∧
  (b.result.urlLen = 0 ∨ 7 ≤ b.result.urlLen.toNat) ∧ b.outBuf.Within b.outLen.toNat

/-- The invariant of one block between two host events. -/
abbrev State.Inv (s : State) : Prop :=
  s.host.inBuf.Within 31 ∧ s.host.txtIn.Within 127 ∧
  s.blk.StatusInv ∧ s.blk.HeaderInv ∧ s.blk.result.VariantInv ∧ s.blk.BankInv

/-! ### Classes -/

/-- A register or bank byte the block writes (R31). -/
def HostReg.blockWritten : HostReg → Bool
  | .inBuf _ | .inLen | .arg | .txtIn _ | .txtInLen | .cmd => false
  | .status | .errCode | .pos | .hFlagsValid | .hFlags | .hSvcUuid | .hSvcDataType | .hFrameType => true
  | .rKind | .rTxpower | .rNamespace _ | .rInstance _ | .rRsvdPresent | .rRsvd _ | .rUrl _ | .rUrlLen => true
  | .rVersion | .rVbatt | .rTempInt | .rTempFrac | .rAdvCount | .rTime | .outBuf _ | .outLen => true

/-- A host command, a row of the command map (R80). -/
def isCommand (i : Instr) : Bool := formatOf i == .cmd

/-- Which command can end in which error (60_exceptions.md R207). -/
def mayRaise : Instr → ErrorKind → Bool
  | .cmdDecode, _ => true
  | .cmdScan, e => e == .invalidArgument || e == .notABeaconAdvertisement || e == .boundsViolation ||
      e == .invalidFrameType
  | .cmdFrame, e => e == .lengthMismatch || e == .invalidScheme || e == .invalidFrameType
  | .cmdUrldec, e => e == .lengthMismatch || e == .invalidScheme
  | .cmdUrlenc, e => e == .invalidArgument || e == .lengthMismatch || e == .invalidScheme
  | .cmdBuild, e => e == .invalidArgument || e == .lengthMismatch || e == .invalidScheme || e == .invalidFrameType
  | .cmdReserved _, e => e == .invalidArgument
  | _, _ => false

/-- The host-written state a command's result may depend on (10_state.md R27): the bytes below a length register, never
those at or above it (R44), and no block-written register. -/
def sameArguments (i : Instr) (s t : State) : Prop :=
  match i with
  | .cmdDecode | .cmdScan => s.inBytes = t.inBytes
  | .cmdFrame | .cmdUrldec | .cmdBuild => s.inBytes = t.inBytes ∧ s.host.arg = t.host.arg
  | .cmdUrlenc => s.text = t.text
  | _ => True

/-- The structure at `POS` passes steps 1 to 4 of the iteration (41_ad_scanner.md R101). -/
def State.structureFits (s : State) : Prop :=
  s.cursor < s.len ∧ s.inByte s.cursor ≠ 0 ∧ s.cursor + 1 + (s.inByte s.cursor).toNat ≤ s.len

/-- The offset of the structure after the one at `POS` (R102). -/
def State.nextStructure (s : State) : Nat := s.cursor + 1 + (s.inByte s.cursor).toNat

/-- The AD type byte of the structure at `POS`. -/
def State.adType (s : State) : Byte := s.inByte (s.cursor + 1)

/-- The 16-bit UUID at the fixed offset of a structure at `POS` (R71). -/
def State.adUuid (s : State) : BitVec 16 := le16 (s.inByte (s.cursor + 2)) (s.inByte (s.cursor + 3))

/-- `t` is `s` with `chars` appended to the text in `R_URL`, and nothing else changed. -/
def textAppended (s t : State) (chars : List Byte) : Prop :=
  t.host = s.host ∧ t.pending = s.pending ∧
  t.blk = { s.blk with result := { s.blk.result with url := t.blk.result.url, urlLen := t.blk.result.urlLen } } ∧
  t.blk.result.urlLen.toNat = s.urlCursor + chars.length ∧
  ∀ j : Nat, t.blk.result.url.read j =
    if s.urlCursor ≤ j ∧ j < s.urlCursor + chars.length then byteAt chars (j - s.urlCursor)
    else s.blk.result.url.read j

/-! ### The greedy parse of a text (43_url_codec.md R151 to R154), said without the encoder -/

/-- Prefix `k` is the longest prefix entry that `text` begins with (R151). -/
abbrev beginsWithPrefix (k : Nat) (text : List Byte) : Prop :=
  k < 4 ∧ prefixRom k <+: text ∧ ∀ j < 4, prefixRom j <+: text → (prefixRom j).length ≤ (prefixRom k).length

/-- Suffix `k` is the longest suffix entry that matches at the start of `text` (R152). -/
abbrev beginsWithSuffix (k : Nat) (text : List Byte) : Prop :=
  k < 14 ∧ suffixRom k <+: text ∧ ∀ j < 14, suffixRom j <+: text → (suffixRom j).length ≤ (suffixRom k).length

/-- No suffix entry matches at the start of `text` (R153). -/
abbrev beginsWithNoSuffix (text : List Byte) : Prop := ∀ j : Nat, j < 14 → ¬ suffixRom j <+: text

/-- What the encoder takes at one position of a text: a suffix entry (R152) or one character as it stands (R153). -/
inductive UrlSymbol where
  | suffix (k : Nat)
  | literal (c : Byte)
deriving DecidableEq, Repr

/-- The body byte of a symbol (R152, R153). -/
def UrlSymbol.code : UrlSymbol → Byte
  | .suffix k => BitVec.ofNat 8 k
  | .literal c => c

/-- A literal below 14 has no body byte of its own: the decoder would read it as a suffix code (R153). -/
def UrlSymbol.encodable : UrlSymbol → Bool
  | .suffix _ => true
  | .literal c => decide (14 ≤ c.toNat)

/-- `syms` is the greedy parse of the text after the prefix: at each position the longest suffix entry that matches
there, and the character itself where none does (R152, R153). The parse has no limit and no error of its own. -/
def greedyParse : List Byte → List UrlSymbol → Bool
  | text, [] => decide (text = [])
  | text, .suffix k :: syms =>
    decide (beginsWithSuffix k text) && greedyParse (text.drop (suffixRom k).length) syms
  | text, .literal c :: syms =>
    decide (text.head? = some c) && decide (beginsWithNoSuffix text) && greedyParse text.tail syms

end Sys2Proof.Machine
end

