-- ==== Sys2Proof/Certificates/Slice0/Obligations.lean ====
section
/-! DEFINITION. The statements for the provers. Each docstring names the rule of spec/ it formalises. -/

open Sys2Proof Sys2Proof.Machine

/-! ### Encodings (30_encoding.md R76 to R80) -/

/-- Every well-formed instruction decodes, under its format's map, from its own encoding. -/
def Obligations.EncodeThenDecodeGivesTheInstruction : Prop :=
  ∀ (i : Instr) (rest : List Byte), wellFormed i = true →
    decode (formatOf i) (encode i ++ rest) = .ok (i, rest)

/-- Every byte has exactly one row in each map (R81: no byte is without one), and the row gives the byte back. -/
def Obligations.EveryByteHasOneRowInEveryMap : Prop :=
  (∀ (f : Format) (b : Byte) (rest : List Byte), ∃ i, decode f (b :: rest) = .ok (i, rest) ∧
    wellFormed i = true ∧ formatOf i = f ∧ encode i = [b]) ∧
  ∀ f : Format, decode f [] = .error .noByte

/-- A few words of R76 to R80, one family each, bit by bit. -/
def Obligations.WordsOfTheCodeMapsDecode : Prop :=
  decodeByte .ad 0b00010110 = .adSvcdata16 ∧ decodeByte .ad 0b00001001 = .adSkip 0b00001001 ∧
  decodeByte .frame 0b00100000 = .frameTlm ∧ decodeByte .frame 0b00010001 = .frameInvalid 0b00010001 ∧
  decodeByte .scheme 0b00000011 = .urlPfx3 ∧ decodeByte .scheme 0b00000100 = .urlPfxinvalid 0b00000100 ∧
  decodeByte .sym 0b00001101 = .urlSfx13 ∧ decodeByte .sym 0b00001110 = .urlLit 0b00001110 ∧
  decodeByte .cmd 0b00000110 = .cmdBuild ∧ decodeByte .cmd 0b00000111 = .cmdReserved 0b00000111

/-! ### The step and the host (R10, R14, R45, R48, R180) -/

/-- A write to `CMD` runs the decoded command, whole, with the value stored in `CMD` and the event taken; so does a
table word placed by withFetchWord. -/
def Obligations.StepRunsTheCommandWritten : Prop :=
  (∀ (s : State) (c : Byte) (rest : List HostEvent) (i : Instr),
    s.pending = .writeCmd c :: rest → decode .cmd [c] = .ok (i, []) →
    step s = exec i { host := { s.host with cmd := c }, blk := s.blk, pending := rest }) ∧
  ∀ (s : State) (w : Nat) (i : Instr), decodeTableWord 8 w = some i →
    step (s.withFetchWord 8 w) = exec i { s with host := { s.host with cmd := BitVec.ofNat 8 w } }

/-- With no event nothing happens (the model's reading of R10, log 1), and a read changes nothing (R45). -/
def Obligations.IdleAndReadsChangeNothing : Prop :=
  (∀ s : State, s.pending = [] → step s = .next s) ∧
  ∀ (s : State) (r : HostReg) (rest : List HostEvent), s.pending = .read r :: rest →
    step s = .next { s with pending := rest }

/-- A host write changes what is read at its own register or byte, and nothing else (R48). -/
def Obligations.HostWriteChangesOnlyItsTarget : Prop :=
  ∀ (s : State) (rest : List HostEvent), s.Inv →
    ∀ (e : HostEvent) (target : HostReg) (v : Nat),
      ((∃ i b, e = .writeInBuf i b ∧ target = .inBuf i ∧ v = b.toNat) ∨
       (∃ n, e = .writeInLen n ∧ target = .inLen ∧ v = n.toNat) ∨
       (∃ b, e = .writeArg b ∧ target = .arg ∧ v = b.toNat) ∨
       (∃ i b, e = .writeTxtIn i b ∧ target = .txtIn i ∧ v = b.toNat) ∨
       (∃ n, e = .writeTxtInLen n ∧ target = .txtInLen ∧ v = n.toNat)) →
      s.pending = e :: rest →
      ∃ t, step s = .next t ∧ t.pending = rest ∧ t.blk = s.blk ∧
        ∀ r : HostReg, t.hostRead r = if r = target then v else s.hostRead r

/-- Reset, from any state, with any contents of the two input banks (R220, R221; that the event brings them
is the model's form, log 3). -/
def Obligations.ResetEventLeavesTheStatedValues : Prop :=
  ∀ (s : State) (a b : List Byte) (rest : List HostEvent), s.pending = .reset a b :: rest →
    a.length = 31 → b.length = 127 →
    ∃ t, step s = .next t ∧ t.pending = rest ∧
      (∀ r : HostReg, r.blockWritten = true → t.hostRead r = 0) ∧
      t.hostRead .cmd = 0 ∧ t.hostRead .arg = 0 ∧ t.hostRead .inLen = 0 ∧ t.hostRead .txtInLen = 0 ∧
      (∀ i : Fin 31, t.hostRead (.inBuf i) = (byteAt a i).toNat) ∧
      ∀ i : Fin 127, t.hostRead (.txtIn i) = (byteAt b i).toNat

/-- The block-written registers and banks after reset, and the state every command starts from (R28). -/
def Obligations.BlockWrittenStateIsZeroAfterReset : Prop :=
  (∀ r : HostReg, r.blockWritten = true → State.reset.hostRead r = 0) ∧
  (∀ (s : State) (r : HostReg), r.blockWritten = true → s.clear.hostRead r = 0) ∧
  State.reset.hostRead .cmd = 0 ∧ State.reset.hostRead .arg = 0 ∧ State.reset.hostRead .inLen = 0 ∧
  State.reset.hostRead .txtInLen = 0

/-- From every state a step answers a next state: a command always completes, a scan ends within its 16 iterations,
a decoded text always fits (R180, R110, R148). That a step takes one pending host event, and leaves the state as it is
when there is none, is the model's choice (log 1). -/
def Obligations.EveryStepAnswersANextState : Prop :=
  ∀ s : State, ∃ t, step s = .next t

/-! ### The invariant -/

/-- The reset state meets the invariant. -/
def Obligations.ResetMeetsTheInvariant : Prop := State.reset.Inv

/-- Every step keeps the invariant, from every state that meets it (R15, R16, R17, R19, R21, R24, R53). -/
def Obligations.EveryStepKeepsTheInvariant : Prop :=
  ∀ s t : State, s.Inv → step s = .next t → t.Inv

/-! ### Commands as a whole (R182, R200, R207, R210 to R212) -/

/-- No instruction changes the host-written state (R10, R48, R182). -/
def Obligations.NoInstructionWritesHostState : Prop :=
  ∀ (i : Instr) (s t : State), exec i s = .next t → t.host = s.host ∧ t.pending = s.pending

/-- Every command ends (R180), either in success (R212) or in an entry of the form of R210, and never in both. Which
error it is that a command ends with is said for each command by the statements that it computes its function. -/
def Obligations.CommandEndsInSuccessOrErrorEntry : Prop :=
  ∀ (i : Instr) (s : State), isCommand i = true →
    ∃ t, exec i s = .next t ∧ t.host = s.host ∧ t.pending = s.pending ∧ t.done = true ∧
      ((t.err = false ∧ t.blk.errCode = 0) ∨
       (t.err = true ∧ ∃ e, t.blk.errCode = errorCode e ∧
         ∀ r : HostReg, r.blockWritten = true → r ≠ .status → r ≠ .errCode → t.hostRead r = 0))

/-- A command's results depend only on the argument bytes below the lengths and on the scalar argument it takes: not
on the bytes above the lengths, not on any block-written register, not on what ran before (R26, R44, R211, R228). -/
def Obligations.CommandsDependOnlyOnTheirArguments : Prop :=
  ∀ (i : Instr) (s t : State), isCommand i = true → sameArguments i s t →
    ∃ s' t', exec i s = .next s' ∧ exec i t = .next t' ∧ s'.blk = t'.blk

/-- Which command can end with which error, both ways (R207). -/
def Obligations.ErrorsOfEachCommand : Prop :=
  ∀ (i : Instr) (e : ErrorKind), isCommand i = true →
    ((∃ s t, exec i s = .next t ∧ t.blk = BlockRegs.failed e) ↔ mayRaise i e = true)

/-- Each command leaves the groups it has no result in cleared (R27, the columns `w`). -/
def Obligations.CommandsWriteOnlyTheirResultGroups : Prop :=
  ∀ (i : Instr) (s t : State), isCommand i = true → exec i s = .next t →
    (i ≠ .cmdDecode → i ≠ .cmdScan → t.blk.pos = 0 ∧ t.blk.header = Header.cleared) ∧
    (i ≠ .cmdDecode → i ≠ .cmdFrame → i ≠ .cmdUrldec → t.blk.result = FrameResult.cleared) ∧
    (i = .cmdUrldec → t.blk.result =
      { FrameResult.cleared with url := t.blk.result.url, urlLen := t.blk.result.urlLen }) ∧
    (i ≠ .cmdUrlenc → i ≠ .cmdBuild → t.blk.outBuf = [] ∧ t.blk.outLen = 0)

/-! ### Each command computes its function (R183 to R189) -/

/-- `CMD_SCAN` (R184) computes `scan` (R111). -/
def Obligations.ScanCommandComputesScan : Prop :=
  ∀ s : State,
    (s.len = 0 → exec .cmdScan s = .next (s.takeError .invalidArgument)) ∧
    (s.len ≠ 0 →
      (∀ e, scanBytes s.inBytes = .error e → exec .cmdScan s = .next (s.takeError e)) ∧
      ∀ h p, scanBytes s.inBytes = .ok (h, p) → exec .cmdScan s = .next (s.succeed (BlockRegs.ofScan h p)))

/-- `CMD_DECODE` (R183) computes `decode` (R128): the first error ends it, and a failed decode leaves no header. -/
def Obligations.DecodeCommandComputesDecode : Prop :=
  ∀ s : State,
    (∀ e, decodeBytes s.inBytes = .error e → exec .cmdDecode s = .next (s.takeError e)) ∧
    ∀ h p r, decodeBytes s.inBytes = .ok (h, p, r) →
      exec .cmdDecode s = .next (s.succeed { BlockRegs.ofScan h p with result := r })

/-- `CMD_FRAME` (R185) computes `frame_decode` (R120) on `ARG` and `IN_BUF[0 .. IN_LEN)`. -/
def Obligations.FrameCommandComputesFrameDecode : Prop :=
  ∀ s : State,
    (∀ e, frameDecode s.host.arg s.inBytes = .error e → exec .cmdFrame s = .next (s.takeError e)) ∧
    ∀ r, frameDecode s.host.arg s.inBytes = .ok r →
      exec .cmdFrame s = .next (s.succeed (BlockRegs.ofResult r))

/-- `CMD_URLDEC` (R186) computes `url_decode` (R146) behind its two guards, in their order. -/
def Obligations.UrlDecodeCommandComputesUrlDecode : Prop :=
  ∀ s : State,
    (16 < s.len → exec .cmdUrldec s = .next (s.takeError .lengthMismatch)) ∧
    (s.len ≤ 16 → 3 < s.host.arg.toNat → exec .cmdUrldec s = .next (s.takeError .invalidScheme)) ∧
    (s.len ≤ 16 → s.host.arg.toNat ≤ 3 →
      exec .cmdUrldec s =
        .next (s.succeed (BlockRegs.ofResult (FrameResult.ofText (urlDecode s.host.arg.toNat s.inBytes)))))

/-- `CMD_URLENC` (R187) puts the encoded URL of `TXT_IN[0 .. TXT_IN_LEN)` into `OUT_BUF`. -/
def Obligations.UrlEncodeCommandWritesTheEncodedUrl : Prop :=
  ∀ s : State,
    (∀ e, urlEncode s.text = .error e → exec .cmdUrlenc s = .next (s.takeError e)) ∧
    ∀ k body, urlEncode s.text = .ok (k, body) →
      exec .cmdUrlenc s = .next (s.succeed (BlockRegs.ofOut (BitVec.ofNat 8 k :: body)))

/-- `CMD_BUILD` (R188) computes `build_packet` (R171, R172) with the source's length-byte overhead of 1, the
parameter's default (log 6). -/
def Obligations.BuildCommandComputesBuildPacket : Prop :=
  ∀ s : State,
    (∀ e, buildBytes 1 s.host.arg s.inBytes = .error e → exec .cmdBuild s = .next (s.takeError e)) ∧
    ∀ pkt, buildBytes 1 s.host.arg s.inBytes = .ok pkt →
      exec .cmdBuild s = .next (s.succeed (BlockRegs.ofOut pkt))

/-- A write of a reserved code is a command that raises `InvalidArgument` (R189). -/
def Obligations.ReservedCodeRaisesInvalidArgument : Prop :=
  (∀ (code : Byte) (s : State), exec (.cmdReserved code) s = .next (s.takeError .invalidArgument)) ∧
  ∀ (s : State) (c : Byte) (rest : List HostEvent), c = 0 ∨ 7 ≤ c.toNat → s.pending = .writeCmd c :: rest →
    ∃ t, step s = .next t ∧ t.hostRead .status = 3 ∧ t.hostRead .errCode = 1 ∧
      ∀ r : HostReg, r.blockWritten = true → r ≠ .status → r ≠ .errCode → t.hostRead r = 0

/-- A command written straight after reset, whatever the input banks hold (R222). -/
def Obligations.CommandsStraightAfterReset : Prop :=
  ∀ (s : State) (a b : List Byte), let r := s.resetWith a b
    exec .cmdDecode r = .next (r.takeError .invalidArgument) ∧
    exec .cmdScan r = .next (r.takeError .invalidArgument) ∧
    exec .cmdFrame r = .next (r.takeError .lengthMismatch) ∧
    exec .cmdUrldec r = .next (r.succeed (BlockRegs.ofResult
      { FrameResult.cleared with url := Memory.writeBytes [] 0 (prefixRom 0), urlLen := 11 })) ∧
    exec .cmdUrlenc r = .next (r.takeError .invalidArgument) ∧
    exec .cmdBuild r = .next (r.takeError .invalidArgument) ∧
    ∀ code, exec (.cmdReserved code) r = .next (r.takeError .invalidArgument)

/-- The cursor and the header after a command (R17, R19, R20): a beacon's after a successful scan or decode, cleared
after everything else. -/
def Obligations.CursorAndHeaderAfterACommand : Prop :=
  ∀ (i : Instr) (s t : State), isCommand i = true → exec i s = .next t →
    if (i = .cmdScan ∨ i = .cmdDecode) ∧ t.err = false then
      5 ≤ t.cursor ∧ t.cursor ≤ s.len ∧ t.blk.header.svcDataType = 0xFEAA ∧
        isFrameType t.blk.header.frameType = true ∧
        (t.blk.header.svcUuid = 0 ∨ t.blk.header.svcUuid = 0xFEAA) ∧
        (t.blk.header.flagsValid = 0 → t.blk.header.flags = 0)
    else t.cursor = 0 ∧ t.blk.header = Header.cleared

/-! ### The AD structure rows (R101 to R109) -/

/-- Each AD row with its operands in the buffer has the effect of R103, R104, R105 or R106, and nothing else changes. That
a row run by itself works on the structure at `POS` is the model's reading (log 4). -/
def Obligations.AdRowsHaveTheirEffect : Prop :=
  ∀ s : State, s.structureFits →
    (s.cursor + 2 < s.len →
      exec .adFlags s = .next { s with blk := { s.blk with
        pos := BitVec.ofNat 5 s.nextStructure
        header := { s.blk.header with flags := s.inByte (s.cursor + 2), flagsValid := 1 } } }) ∧
    (s.cursor + 3 < s.len → s.adUuid = 0xFEAA →
      exec .adUuid16 s = .next { s with blk := { s.blk with
        pos := BitVec.ofNat 5 s.nextStructure
        header := { s.blk.header with svcUuid := 0xFEAA } } }) ∧
    (s.cursor + 4 < s.len → s.adUuid = 0xFEAA → isFrameType (s.inByte (s.cursor + 4)) = true →
      exec .adSvcdata16 s = .next { s with blk := { s.blk with
        pos := BitVec.ofNat 5 (s.cursor + 5)
        header := { s.blk.header with svcDataType := 0xFEAA, frameType := s.inByte (s.cursor + 4) } } }) ∧
    (∀ ty : Byte, exec (.adSkip ty) s = .next { s with blk := { s.blk with pos := BitVec.ofNat 5 s.nextStructure } }) ∧
    (BitVec.ofNat 5 s.nextStructure).toNat = s.nextStructure ∧ s.cursor + 1 < s.nextStructure ∧
    s.nextStructure ≤ s.len

/-- The errors of the AD rows, each check in its place (R101 steps 1, 3, 4; R103 to R105; R107, R108). That a row run by
itself makes these checks and enters its error in full is the model's reading (log 4, log 5). -/
def Obligations.AdRowsRaiseInOrder : Prop :=
  ∀ s : State,
    (∀ i : Instr, formatOf i = .ad →
      (s.len ≤ s.cursor → exec i s = .next (s.takeError .notABeaconAdvertisement)) ∧
      (s.cursor < s.len → s.inByte s.cursor = 0 → exec i s = .next (s.takeError .notABeaconAdvertisement)) ∧
      (s.cursor < s.len → s.inByte s.cursor ≠ 0 → s.len < s.nextStructure →
        exec i s = .next (s.takeError .boundsViolation))) ∧
    (s.structureFits →
      (s.len ≤ s.cursor + 2 → exec .adFlags s = .next (s.takeError .boundsViolation)) ∧
      (s.len ≤ s.cursor + 3 → exec .adUuid16 s = .next (s.takeError .boundsViolation)) ∧
      (s.cursor + 3 < s.len → s.adUuid ≠ 0xFEAA →
        exec .adUuid16 s = .next (s.takeError .notABeaconAdvertisement)) ∧
      (s.len ≤ s.cursor + 4 → exec .adSvcdata16 s = .next (s.takeError .boundsViolation)) ∧
      (s.cursor + 4 < s.len → s.adUuid ≠ 0xFEAA →
        exec .adSvcdata16 s = .next (s.takeError .notABeaconAdvertisement)) ∧
      (s.cursor + 4 < s.len → s.adUuid = 0xFEAA → isFrameType (s.inByte (s.cursor + 4)) = false →
        exec .adSvcdata16 s = .next (s.takeError .invalidFrameType)))

/-- Inside a command the units run the decoded rows, one after another (R101 step 6, R120, R142, R146). The clauses
about exec of an inner row by itself rest on the model's reading of where such a row takes its operands (log 4), and
those with the error entry on its reading that the row's error is entered in full (log 5). -/
def Obligations.UnitsRunTheDecodedRows : Prop :=
  (∀ (n : Nat) (s t : State), s.structureFits → runAdRow (decodeByte .ad s.adType) s = .ok t →
    exec (decodeByte .ad s.adType) s = .next t ∧
    scanLoop (n + 1) s = if s.adType = 0x16 then .ok t else scanLoop n t) ∧
  (∀ (n : Nat) (s : State) (e : ErrorKind), s.structureFits →
    runAdRow (decodeByte .ad s.adType) s = .error (.raise e) →
    exec (decodeByte .ad s.adType) s = .next (s.takeError e) ∧ scanLoop (n + 1) s = .error (.raise e)) ∧
  (∀ (ft : Byte) (s : State), exec (decodeByte .frame ft) s = finishRow s (runFrame ft s)) ∧
  (∀ (b : Byte) (s : State), exec (decodeByte .scheme b) s = finishRow s (runUrl b [] s)) ∧
  ∀ (b : Byte) (rest : List Byte) (s t : State), exec (decodeByte .sym b) s = .next t →
    emitBody (b :: rest) s = emitBody rest t

/-! ### The frame rows (R120 to R127) -/

/-- Each frame row with a payload of an accepted length fills the registers of its variant (R122, R123, R125) and
changes nothing else. That the row works on the payload at `POS` when run by itself is the model's reading (log 4), and
so is that it writes the banks of its variant whole, whatever they held: `R_RSVD` 0, 0 without the pair, `R_URL` 0 above
the text (log 8). -/
def Obligations.FrameRowsFillTheirVariant : Prop :=
  ∀ (s : State) (p : List Byte), p = s.payload →
    (p.length = 17 ∨ p.length = 19 →
      ∃ t, exec .frameUid s = .next t ∧ t.host = s.host ∧ t.pending = s.pending ∧
        t.blk = { s.blk with result := { s.blk.result with
          kind := 1, txpower := byteAt p 0, nspace := t.blk.result.nspace, inst := t.blk.result.inst
          rsvdPresent := if p.length = 19 then 1 else 0, rsvd := t.blk.result.rsvd } } ∧
        (∀ k : Nat, t.blk.result.nspace.read k = if k < 10 then byteAt p (1 + k) else 0) ∧
        (∀ k : Nat, t.blk.result.inst.read k = if k < 6 then byteAt p (11 + k) else 0) ∧
        ∀ k : Nat, t.blk.result.rsvd.read k = if k < 2 ∧ p.length = 19 then byteAt p (17 + k) else 0) ∧
    (2 ≤ p.length → p.length ≤ 18 → (byteAt p 1).toNat ≤ 3 →
      ∃ t, exec .frameUrl s = .next t ∧ t.host = s.host ∧ t.pending = s.pending ∧
        t.blk = { s.blk with result := { s.blk.result with
          kind := 2, txpower := byteAt p 0, url := t.blk.result.url, urlLen := t.blk.result.urlLen } } ∧
        t.blk.result.urlLen.toNat = (urlDecode (byteAt p 1).toNat (p.drop 2)).length ∧
        ∀ k : Nat, t.blk.result.url.read k = byteAt (urlDecode (byteAt p 1).toNat (p.drop 2)) k) ∧
    (p.length = 13 ∨ p.length = 14 →
      exec .frameTlm s = .next { s with blk := { s.blk with result := { s.blk.result with
        kind := 3, version := byteAt p 0, vbatt := be16 (byteAt p 1) (byteAt p 2), tempInt := byteAt p 3
        tempFrac := byteAt p 4, advCount := be32 (byteAt p 5) (byteAt p 6) (byteAt p 7) (byteAt p 8)
        time := be32 (byteAt p 9) (byteAt p 10) (byteAt p 11) (byteAt p 12) } } })

/-- The length law and the scheme check of the frame rows, the length first (R123, R127). The payload at `POS` and the
full error entry of a row run by itself are the model's reading (log 4, log 5). -/
def Obligations.FrameRowsRaiseInOrder : Prop :=
  ∀ (s : State) (m : Nat), m = s.payload.length →
    (m ≠ 17 → m ≠ 19 → exec .frameUid s = .next (s.takeError .lengthMismatch)) ∧
    (m < 2 ∨ 18 < m → exec .frameUrl s = .next (s.takeError .lengthMismatch)) ∧
    (2 ≤ m → m ≤ 18 → 3 < (byteAt s.payload 1).toNat → exec .frameUrl s = .next (s.takeError .invalidScheme)) ∧
    (m < 13 ∨ 14 < m → exec .frameTlm s = .next (s.takeError .lengthMismatch))

/-- Any other frame type raises `InvalidFrameType`, whatever the payload (R121). The full error entry of a row run
by itself is the model's reading (log 5). -/
def Obligations.InvalidFrameTypeRaises : Prop :=
  (∀ (ft : Byte) (s : State), exec (.frameInvalid ft) s = .next (s.takeError .invalidFrameType)) ∧
  ∀ (ft : Byte) (s : State), ft ≠ 0x00 → ft ≠ 0x10 → ft ≠ 0x20 →
    exec (decodeByte .frame ft) s = .next (s.takeError .invalidFrameType)

/-- A scheme byte of 4 or more raises `InvalidScheme` (R123). The full error entry of a row run by itself is the model's
reading (log 5). -/
def Obligations.InvalidSchemeRaises : Prop :=
  (∀ (b : Byte) (s : State), exec (.urlPfxinvalid b) s = .next (s.takeError .invalidScheme)) ∧
  ∀ (b : Byte) (s : State), 3 < b.toNat → exec (decodeByte .scheme b) s = .next (s.takeError .invalidScheme)

/-- The temperature of two bytes is exact, its integer part is its floor, no two pairs share one, and a TLM row with a
payload of an accepted length delivers that of its bytes 3 and 4, whatever they are (R126). That the row run by itself
works on the payload at `POS` is the model's reading (log 4). -/
def Obligations.TemperatureIsExact : Prop :=
  (∀ hi lo : Byte, temperature hi lo = (s8 hi : ℚ) + (lo.toNat : ℚ) / 256 ∧
    temperature hi lo = ((be16 hi lo).toInt : ℚ) / 256 ∧ ⌊temperature hi lo⌋ = s8 hi) ∧
  (∀ hi lo hi' lo' : Byte, temperature hi lo = temperature hi' lo' → hi = hi' ∧ lo = lo') ∧
  temperature 0xFF 0x80 = -1 / 2 ∧ temperature 0xFF 0x00 = -1 ∧
  ∀ s : State, s.payload.length = 13 ∨ s.payload.length = 14 →
    ∃ t, exec .frameTlm s = .next t ∧ temperature t.blk.result.tempInt t.blk.result.tempFrac =
      (s8 (byteAt s.payload 3) : ℚ) + ((byteAt s.payload 4).toNat : ℚ) / 256

/-- The host's payload layouts are the inverse of the decoders' field rules (R174, R175, R176). -/
def Obligations.LayoutsDecodeToTheirFields : Prop :=
  (∀ (ranging a b : Byte) (ns inst : List Byte) (pair : Bool), ns.length = 10 → inst.length = 6 →
    frameDecode 0x00 (layoutUid ranging ns inst (if pair then some (a, b) else none)) =
      .ok { FrameResult.cleared with
        kind := 1, txpower := ranging, nspace := Memory.writeBytes [] 0 ns, inst := Memory.writeBytes [] 0 inst
        rsvdPresent := if pair then 1 else 0, rsvd := if pair then Memory.writeBytes [] 0 [a, b] else [] }) ∧
  (∀ (tx k : Byte) (body : List Byte), k.toNat ≤ 3 → body.length ≤ 16 →
    frameDecode 0x10 (layoutUrl tx k body) =
      .ok { FrameResult.ofText (urlDecode k.toNat body) with kind := 2, txpower := tx }) ∧
  ∀ (version hi lo : Byte) (vbatt : BitVec 16) (adv time : BitVec 32),
    frameDecode 0x20 (layoutTlm version vbatt hi lo adv time) =
      .ok { FrameResult.cleared with
        kind := 3, version := version, vbatt := vbatt, tempInt := hi, tempFrac := lo, advCount := adv, time := time }

/-! ### The URL rows and the codec (R140 to R156) -/

/-- A scheme row begins the text with its prefix: the text registers hold it, and nothing else changes (R143). That a row
run by itself starts from an empty `R_URL` is the model's reading (log 4, log 8). -/
def Obligations.SchemeRowsBeginTheText : Prop :=
  ∀ (i : Instr) (k : Nat), (i, k) ∈ [(Instr.urlPfx0, 0), (.urlPfx1, 1), (.urlPfx2, 2), (.urlPfx3, 3)] →
    ∀ s : State, ∃ t, exec i s = .next t ∧ t.host = s.host ∧ t.pending = s.pending ∧
      t.blk = { s.blk with result := { s.blk.result with
        url := t.blk.result.url, urlLen := BitVec.ofNat 7 (prefixRom k).length } } ∧
      ∀ j : Nat, t.blk.result.url.read j = byteAt (prefixRom k) j

/-- A suffix row appends its string, a literal row its one character, at the output cursor, where there is room;
everything else, every other byte of `R_URL` included, is as before (R144, R145). That `R_URL_LEN` is the output cursor
of a row run by itself is the model's reading (log 4). -/
def Obligations.SymbolRowsAppendTheirText : Prop :=
  ∀ s : State, s.blk.result.url.wf = true →
    (∀ (i : Instr) (k : Nat), (i, k) ∈ [(Instr.urlSfx0, 0), (.urlSfx1, 1), (.urlSfx2, 2), (.urlSfx3, 3),
        (.urlSfx4, 4), (.urlSfx5, 5), (.urlSfx6, 6), (.urlSfx7, 7), (.urlSfx8, 8), (.urlSfx9, 9), (.urlSfx10, 10),
        (.urlSfx11, 11), (.urlSfx12, 12), (.urlSfx13, 13)] →
      s.urlCursor + (suffixRom k).length ≤ 108 →
      ∃ t, exec i s = .next t ∧ textAppended s t (suffixRom k)) ∧
    ∀ c : Byte, s.urlCursor + 1 ≤ 108 → ∃ t, exec (.urlLit c) s = .next t ∧ textAppended s t [c]

/-- The model's own stop (log 7): a symbol row run where its text would pass the end of `R_URL` faults by name. -/
def Obligations.SymbolRowsStopAtTheEndOfTheBank : Prop :=
  ∀ s : State,
    (∀ b : Byte, b.toNat < 14 → 108 < s.urlCursor + (suffixRom b.toNat).length →
      exec (decodeByte .sym b) s = .fault .urlBankOverflow) ∧
    ∀ c : Byte, 108 ≤ s.urlCursor → exec (.urlLit c) s = .fault .urlBankOverflow

/-- The tables (R140, R141): lengths, the short entries, the dots. -/
def Obligations.TablesHaveTheirShape : Prop :=
  ((List.range 4).map fun k => (prefixRom k).length) = [11, 12, 7, 8] ∧
  ((List.range 14).map fun k => (suffixRom k).length) = [5, 5, 5, 5, 6, 5, 5, 4, 4, 4, 4, 5, 4, 4] ∧
  (∀ k < 7, suffixRom k = suffixRom (k + 7) ++ [0x2F]) ∧
  ∀ k < 14, byteAt (suffixRom k) 0 = 0x2E ∧ 0x2E ∉ (suffixRom k).drop 1

/-- The alphabet of a decoded text (R147): every character stands in the string of the prefix or of a suffix code of
the body, and is then printable ASCII from 0x2E to 0x7A, or is a literal byte of the body of value 14 or more. So none
is below 14. -/
def Obligations.DecodedTextHasNoCharacterBelow14 : Prop :=
  ∀ (s : Nat) (body : List Byte), s ≤ 3 → ∀ c ∈ urlDecode s body, 14 ≤ c.toNat ∧
    (((c ∈ prefixRom s ∨ ∃ b ∈ body, b.toNat < 14 ∧ c ∈ suffixRom b.toNat) ∧ 0x2E ≤ c.toNat ∧ c.toNat ≤ 0x7A) ∨
      (c ∈ body ∧ 14 ≤ c.toNat))

/-- The length of a decoded text (R148). -/
def Obligations.DecodedTextLength : Prop :=
  ∀ (s : Nat) (body : List Byte), s ≤ 3 →
    (urlDecode s body).length = (prefixRom s).length + (body.map fun b => (symbolText b).length).sum ∧
    (∀ b : Byte, if b.toNat < 14 then 4 ≤ (symbolText b).length ∧ (symbolText b).length ≤ 6
      else (symbolText b).length = 1) ∧
    (body.length ≤ 16 → 7 ≤ (urlDecode s body).length ∧ (urlDecode s body).length ≤ 108) ∧
    (urlDecode 2 []).length = 7 ∧ (urlDecode 1 (List.replicate 16 0x04)).length = 108

/-- The encoder takes the longest prefix and, at each position, the longest suffix that matches (R151, R152). -/
def Obligations.EncoderMatchesLongest : Prop :=
  (∀ (text : List Byte) (k : Nat), longestPrefix text = some k ↔
    k < 4 ∧ prefixRom k <+: text ∧ ∀ j < 4, prefixRom j <+: text → (prefixRom j).length ≤ (prefixRom k).length) ∧
  ∀ (rest : List Byte) (k : Nat), longestSuffix rest = some k ↔
    k < 14 ∧ suffixRom k <+: rest ∧ ∀ j < 14, suffixRom j <+: rest → (suffixRom j).length ≤ (suffixRom k).length

/-- What the encoder produces is within what a URL frame may carry (R154), from a text of at most 108 characters
(R231). -/
def Obligations.EncodedUrlFitsAUrlFrame : Prop :=
  ∀ (text : List Byte) (k : Nat) (body : List Byte), urlEncode text = .ok (k, body) →
    k ≤ 3 ∧ body.length ≤ 16 ∧ text.length ≤ 108

/-- When the encoder accepts, both ways (R150 to R154): a text is accepted exactly when it begins with a prefix entry
and the greedy parse of what follows the longest one has at most 16 symbols and no literal below 14, and the body is the
codes of the symbols. Every string of characters has exactly one greedy parse. -/
def Obligations.EncoderAcceptsTheGreedyParse : Prop :=
  (∀ (text : List Byte) (k : Nat) (body : List Byte), urlEncode text = .ok (k, body) ↔
    beginsWithPrefix k text ∧ ∃ syms, greedyParse (text.drop (prefixRom k).length) syms = true ∧ syms.length ≤ 16 ∧
      syms.all UrlSymbol.encodable = true ∧ body = syms.map UrlSymbol.code) ∧
  ∀ rest : List Byte, ∃! syms, greedyParse rest syms = true

/-- The errors of the encoder, each check in its place (R150, R151, R153, R154): the empty text; no known prefix; then,
along the greedy parse of what follows the longest prefix, a literal below 14 among the first 17 symbols with none before
it, the 17th included, where the length test would come next; and a 17th symbol with no such literal up to it, whatever
follows. -/
def Obligations.EncoderRaisesInOrder : Prop :=
  urlEncode [] = .error .invalidArgument ∧
  (∀ text : List Byte, text ≠ [] → (∀ k < 4, ¬ prefixRom k <+: text) → urlEncode text = .error .invalidScheme) ∧
  ∀ (k : Nat) (rest : List Byte) (done : List UrlSymbol) (sym : UrlSymbol) (more : List UrlSymbol),
    beginsWithPrefix k (prefixRom k ++ rest) → greedyParse rest (done ++ sym :: more) = true →
    done.all UrlSymbol.encodable = true →
      (done.length ≤ 16 → sym.encodable = false →
        urlEncode (prefixRom k ++ rest) = .error .invalidArgument) ∧
      (done.length = 16 → sym.encodable = true →
        urlEncode (prefixRom k ++ rest) = .error .lengthMismatch)

/-- Round trip, text first (R155). -/
def Obligations.UrlTextRoundTrip : Prop :=
  ∀ (text : List Byte) (k : Nat) (body : List Byte), urlEncode text = .ok (k, body) → urlDecode k body = text

/-- Round trip, bytes first (R156): a canonical pair comes back. Any pair's text has a prefix and a greedy parse with no
literal below 14, and the encoder gives the canonical pair of that same text when the parse has at most 16 symbols, and
`LengthMismatch`, no other error, exactly when it has more. -/
def Obligations.UrlCanonicalRoundTrip : Prop :=
  (∀ (text : List Byte) (k : Nat) (body : List Byte), urlEncode text = .ok (k, body) →
    urlEncode (urlDecode k body) = .ok (k, body)) ∧
  ∀ (s : Nat) (body : List Byte), s ≤ 3 → ∃ k syms, beginsWithPrefix k (urlDecode s body) ∧
    greedyParse ((urlDecode s body).drop (prefixRom k).length) syms = true ∧
    syms.all UrlSymbol.encodable = true ∧
    urlDecode k (syms.map UrlSymbol.code) = urlDecode s body ∧
    urlEncode (urlDecode s body) =
      if syms.length ≤ 16 then .ok (k, syms.map UrlSymbol.code) else .error .lengthMismatch

/-! ### The packet builder (R170 to R177) and whole transactions -/

/-- Build then decode (R177), for both length-byte overheads. -/
def Obligations.BuildThenDecode : Prop :=
  ∀ (overhead : Nat) (ft : Byte) (p pkt : List Byte), overhead = 1 ∨ overhead = 4 →
    buildBytes overhead ft p = .ok pkt →
    pkt.length = 12 + p.length ∧ pkt.length ≤ 31 ∧
    ∃ r, frameDecode ft p = .ok r ∧
      decodeBytes pkt = .ok
        ({ flagsValid := 1, flags := 0x06, svcUuid := 0xFEAA, svcDataType := 0xFEAA, frameType := ft }, 12, r)

/-- The host copies a built packet from `OUT_BUF` to `IN_BUF` and decodes it on the block (R177, R227). -/
def Obligations.BuiltPacketDecodesOnTheBlock : Prop :=
  ∀ s t : State, exec .cmdBuild s = .next t → t.err = false →
    let u : State := { t with host := { t.host with inBuf := t.blk.outBuf, inLen := t.blk.outLen } }
    ∃ r, frameDecode s.host.arg s.inBytes = .ok r ∧
      exec .cmdDecode u = .next (u.succeed { BlockRegs.cleared with
        pos := 12
        header :=
          { flagsValid := 1, flags := 0x06, svcUuid := 0xFEAA, svcDataType := 0xFEAA, frameType := s.host.arg }
        result := r })

/-- From text to a packet and back (R175, R227): the text that `CMD_URLENC` accepted is the text that `CMD_DECODE`
shows for the packet built from it, with the transmit power the host put before it. -/
def Obligations.TextSurvivesEncodeBuildDecode : Prop :=
  ∀ (s t : State) (tx : Byte), exec .cmdUrlenc s = .next t → t.err = false →
    let payload := tx :: t.blk.outBuf.readBytes 0 t.blk.outLen.toNat
    let u : State := { t with host := { t.host with
      inBuf := Memory.writeBytes [] 0 payload, inLen := BitVec.ofNat 5 payload.length, arg := 0x10 } }
    ∃ v, exec .cmdBuild u = .next v ∧ v.err = false ∧
      let w : State := { v with host := { v.host with inBuf := v.blk.outBuf, inLen := v.blk.outLen } }
      ∃ x, exec .cmdDecode w = .next x ∧ x.err = false ∧ x.blk.result.kind = 2 ∧ x.blk.result.txpower = tx ∧
        x.blk.result.urlLen.toNat = s.text.length ∧ ∀ j : Nat, x.blk.result.url.read j = byteAt s.text j

/-! ### Numbers and bits -/

/-- The numbers assembled from bytes (R71, R72, R73). -/
def Obligations.NumbersFromBytes : Prop :=
  (∀ a b : Byte, (le16 a b).toNat = a.toNat + 256 * b.toNat ∧ (be16 a b).toNat = 256 * a.toNat + b.toNat) ∧
  le16 0xAA 0xFE = 0xFEAA ∧
  (∀ a b c d : Byte, (be32 a b c d).toNat =
    2 ^ 24 * a.toNat + 2 ^ 16 * b.toNat + 2 ^ 8 * c.toNat + d.toNat) ∧
  ∀ a : Byte, s8 a = a.toInt

/-- What a read of `STATUS` gives, and the codes of the errors (R15, R16, R200). -/
def Obligations.StatusAndErrorCodes : Prop :=
  (∀ s : State, s.hostRead .status = (if s.done then 1 else 0) + (if s.err then 2 else 0)) ∧
  errorCode .invalidArgument = 1 ∧ errorCode .notABeaconAdvertisement = 2 ∧ errorCode .boundsViolation = 3 ∧
  errorCode .lengthMismatch = 4 ∧ errorCode .invalidScheme = 5 ∧ errorCode .invalidFrameType = 6
end

