-- ==== Sys2Proof/Laws/Memory.lean ====
section
/-! SUPPORT. The laws of the byte banks: a read after a write, the canonical form, the range. -/

namespace Sys2Proof.Machine

@[simp] theorem Memory.read_nil (i : Nat) : Memory.read [] i = 0 := rfl

@[simp] theorem Memory.writeBytes_nil (m : Memory) (i : Nat) : Memory.writeBytes m i [] = m := rfl

@[simp] theorem Memory.readBytes_zero (m : Memory) (i : Nat) : Memory.readBytes m i 0 = [] := rfl

/-! ### Reads -/

/-- A write leaves every other index alone, whatever the bank. -/
theorem Memory.read_write_ne (m : Memory) {i j : Nat} (v : Byte) (h : j ≠ i) :
    (m.write i v).read j = m.read j := by
  induction m with
  | nil => simp only [Memory.write]; split <;> simp [Memory.read, Memory.unlisted, Ne.symm h]
  | cons c rest ih =>
    obtain ⟨k, b⟩ := c
    simp only [Memory.write]
    split
    · split <;> simp [Memory.read, Ne.symm h]
    · split
      · rename_i hk; subst hk
        split <;> simp [Memory.read, Ne.symm h]
      · simp [Memory.read, ih]

/-- Below the lowest listed index of a canonical bank everything reads as unlisted. -/
theorem Memory.read_of_lt {lo : Nat} {m : Memory} (h : m.canonicalAbove lo = true) {i : Nat} (hi : i < lo) :
    m.read i = Memory.unlisted := by
  induction m generalizing lo with
  | nil => rfl
  | cons c rest ih =>
    obtain ⟨k, b⟩ := c
    simp [Memory.canonicalAbove] at h
    have : k ≠ i := by omega
    simp [Memory.read, this]
    exact ih h.2 (by omega)

/-- A read after a write to the same index gives the value written. -/
theorem Memory.read_write_self {lo : Nat} {m : Memory} (h : m.canonicalAbove lo = true) (i : Nat) (v : Byte) :
    (m.write i v).read i = v := by
  induction m generalizing lo with
  | nil => simp only [Memory.write]; split <;> simp_all [Memory.read]
  | cons c rest ih =>
    obtain ⟨k, b⟩ := c
    simp [Memory.canonicalAbove] at h
    simp only [Memory.write]
    split
    · split
      · rename_i hik hv; subst hv
        have : k ≠ i := by omega
        simp [Memory.read, this]
        exact Memory.read_of_lt h.2 (by omega)
      · simp [Memory.read]
    · split
      · rename_i hk; subst hk
        split
        · rename_i hv; subst hv; exact Memory.read_of_lt h.2 (by omega)
        · simp [Memory.read]
      · rename_i h1 h2
        simp [Memory.read, Ne.symm h2]
        exact ih h.2

/-- The two read laws in one. -/
theorem Memory.read_write {m : Memory} (h : m.wf = true) (i j : Nat) (v : Byte) :
    (m.write i v).read j = if j = i then v else m.read j := by
  split
  · rename_i hji; subst hji; exact Memory.read_write_self h _ v
  · rename_i hji; exact Memory.read_write_ne m v hji

/-! ### The canonical form -/

theorem Memory.canonicalAbove_mono {lo lo' : Nat} {m : Memory} (h : m.canonicalAbove lo' = true) (hl : lo ≤ lo') :
    m.canonicalAbove lo = true := by
  cases m with
  | nil => rfl
  | cons c rest =>
    obtain ⟨k, b⟩ := c
    simp [Memory.canonicalAbove] at h ⊢
    exact ⟨⟨by omega, h.1.2⟩, h.2⟩

/-- A write at or above the bound keeps the canonical form above it. -/
theorem Memory.write_canonicalAbove {lo : Nat} {m : Memory} (h : m.canonicalAbove lo = true) {i : Nat} (hi : lo ≤ i)
    (v : Byte) : (m.write i v).canonicalAbove lo = true := by
  induction m generalizing lo with
  | nil => simp only [Memory.write]; split <;> simp_all [Memory.canonicalAbove]
  | cons c rest ih =>
    obtain ⟨k, b⟩ := c
    have h' := h
    simp [Memory.canonicalAbove] at h
    simp only [Memory.write]
    split
    · split
      · exact h'
      · rename_i hv
        simp [Memory.canonicalAbove, hi, hv, h.1.2, h.2]; omega
    · split
      · rename_i hk; subst hk
        split
        · exact Memory.canonicalAbove_mono h.2 (by omega)
        · rename_i hv; simp [Memory.canonicalAbove, hi, hv, h.2]
      · simp [Memory.canonicalAbove, h.1]
        exact ih h.2 (by omega)

/-- A write keeps the canonical form. -/
theorem Memory.write_wf {m : Memory} (h : m.wf = true) (i : Nat) (v : Byte) : (m.write i v).wf = true :=
  Memory.write_canonicalAbove h (Nat.zero_le i) v

/-- Writing a byte string keeps the canonical form. -/
theorem Memory.writeBytes_wf {m : Memory} (h : m.wf = true) (i : Nat) (bs : List Byte) :
    (m.writeBytes i bs).wf = true := by
  induction bs generalizing m i with
  | nil => exact h
  | cons b bs ih => exact ih (Memory.write_wf h i b) (i + 1)

/-! ### The range -/

/-- A write below `n` stays below `n`. -/
theorem Memory.write_below {m : Memory} {n : Nat} (h : m.below n = true) {i : Nat} (hi : i < n) (v : Byte) :
    (m.write i v).below n = true := by
  induction m with
  | nil => simp only [Memory.write]; split <;> simp [Memory.below, hi]
  | cons c rest ih =>
    obtain ⟨k, b⟩ := c
    simp [Memory.below] at h ih
    simp only [Memory.write]
    split
    · split <;> simp [Memory.below, hi, h.1] <;> exact h.2
    · split
      · split <;> simp [Memory.below, hi] <;> exact h.2
      · simp [Memory.below, h.1]; exact ih h.2

/-- Writing a byte string that ends at or below `n` stays below `n`. -/
theorem Memory.writeBytes_below {m : Memory} {n : Nat} (h : m.below n = true) {i : Nat} {bs : List Byte}
    (hi : i + bs.length ≤ n) : (m.writeBytes i bs).below n = true := by
  induction bs generalizing m i with
  | nil => exact h
  | cons b bs ih =>
    simp at hi
    exact ih (Memory.write_below h (by omega) b) (by omega)

/-- From its range on a bank reads as unlisted. -/
theorem Memory.read_of_below {m : Memory} {n : Nat} (h : m.below n = true) {i : Nat} (hi : n ≤ i) :
    m.read i = Memory.unlisted := by
  induction m with
  | nil => rfl
  | cons c rest ih =>
    obtain ⟨k, b⟩ := c
    simp [Memory.below] at h ih
    have : k ≠ i := by omega
    simp [Memory.read, this]
    exact ih h.2

theorem Memory.Within.write {m : Memory} {n : Nat} (h : m.Within n) {i : Nat} (hi : i < n) (v : Byte) :
    (Memory.write m i v).Within n :=
  ⟨Memory.write_wf h.1 i v, Memory.write_below h.2 hi v⟩

theorem Memory.Within.writeBytes {m : Memory} {n : Nat} (h : m.Within n) {i : Nat} {bs : List Byte}
    (hi : i + bs.length ≤ n) : (Memory.writeBytes m i bs).Within n :=
  ⟨Memory.writeBytes_wf h.1 i bs, Memory.writeBytes_below h.2 hi⟩

@[simp] theorem Memory.within_nil (n : Nat) : Memory.Within [] n := ⟨rfl, rfl⟩

/-! ### Byte strings -/

@[simp] theorem Memory.readBytes_length (m : Memory) (i n : Nat) : (m.readBytes i n).length = n := by
  induction n generalizing i with
  | zero => rfl
  | succ n ih => simp [Memory.readBytes, ih]

/-- Writing one string after another is writing their concatenation. -/
theorem Memory.writeBytes_append (m : Memory) (i : Nat) (a b : List Byte) :
    m.writeBytes i (a ++ b) = (m.writeBytes i a).writeBytes (i + a.length) b := by
  induction a generalizing m i with
  | nil => rfl
  | cons x a ih =>
    simp only [List.cons_append, Memory.writeBytes, List.length_cons]
    rw [ih]; congr 1; omega

/-- What a bank reads after a byte string was written to it. -/
theorem Memory.read_writeBytes {m : Memory} (h : m.wf = true) (i : Nat) (bs : List Byte) (j : Nat) :
    (m.writeBytes i bs).read j = if i ≤ j ∧ j < i + bs.length then byteAt bs (j - i) else m.read j := by
  induction bs generalizing m i with
  | nil => simp
  | cons b bs ih =>
    rw [Memory.writeBytes, ih (Memory.write_wf h i b), Memory.read_write h]
    simp only [List.length_cons, byteAt]
    by_cases h1 : j = i
    · subst h1; simp
    · by_cases h2 : i + 1 ≤ j ∧ j < i + 1 + bs.length
      · obtain ⟨d, rfl⟩ : ∃ d, j = i + 1 + d := ⟨j - (i + 1), by omega⟩
        rw [if_pos h2, if_pos ⟨by omega, by omega⟩]
        have e1 : i + 1 + d - (i + 1) = d := by omega
        have e2 : i + 1 + d - i = d + 1 := by omega
        simp [e1, e2]
      · rw [if_neg h2, if_neg h1, if_neg (by omega)]

/-- One byte of a slice. -/
theorem Memory.byteAt_readBytes (m : Memory) (i n k : Nat) (h : k < n) : byteAt (m.readBytes i n) k = m.read (i + k) := by
  induction n generalizing i k with
  | zero => omega
  | succ n ih =>
    cases k with
    | zero => simp [byteAt, Memory.readBytes]
    | succ k =>
      have := ih (i + 1) k (by omega)
      simp only [byteAt, Memory.readBytes, List.getD_cons_succ] at this ⊢
      rw [this]; congr 1; omega

/-- A slice of a slice. -/
theorem Memory.readBytes_drop (m : Memory) (i n k : Nat) :
    (m.readBytes i n).drop k = m.readBytes (i + k) (n - k) := by
  induction k generalizing i n with
  | zero => simp
  | succ k ih =>
    cases n with
    | zero => simp
    | succ n =>
      rw [Memory.readBytes, List.drop_succ_cons, ih]
      congr 1 <;> omega

end Sys2Proof.Machine
end

