-- ==== Sys2Proof/Laws/State.lean ====
section
/-! SUPPORT. One lemma per field per update of State, each true by unfolding, so that no proof unfolds an update. -/

namespace Sys2Proof.Machine

/-! `State.setHost` -/
@[simp] theorem State.setHost_pending (s : State) (h : HostRegs) : (s.setHost h).pending = s.pending := rfl
@[simp] theorem State.setHost_host (s : State) (h : HostRegs) : (s.setHost h).host = h := rfl
@[simp] theorem State.setHost_blk (s : State) (h : HostRegs) : (s.setHost h).blk = s.blk := rfl

/-! `State.setBlk` -/
@[simp] theorem State.setBlk_pending (s : State) (b : BlockRegs) : (s.setBlk b).pending = s.pending := rfl
@[simp] theorem State.setBlk_host (s : State) (b : BlockRegs) : (s.setBlk b).host = s.host := rfl
@[simp] theorem State.setBlk_blk (s : State) (b : BlockRegs) : (s.setBlk b).blk = b := rfl
@[simp] theorem State.setBlk_len (s : State) (b : BlockRegs) : (s.setBlk b).len = s.len := rfl
@[simp] theorem State.setBlk_inBytes (s : State) (b : BlockRegs) : (s.setBlk b).inBytes = s.inBytes := rfl
@[simp] theorem State.setBlk_text (s : State) (b : BlockRegs) : (s.setBlk b).text = s.text := rfl
@[simp] theorem State.setBlk_inByte (s : State) (b : BlockRegs) (i : Nat) : (s.setBlk b).inByte i = s.inByte i := rfl

/-! `State.setPos` -/
@[simp] theorem State.setPos_pending (s : State) (p : Nat) : (s.setPos p).pending = s.pending := rfl
@[simp] theorem State.setPos_host (s : State) (p : Nat) : (s.setPos p).host = s.host := rfl
@[simp] theorem State.setPos_blk_status (s : State) (p : Nat) : (s.setPos p).blk.status = s.blk.status := rfl
@[simp] theorem State.setPos_blk_errCode (s : State) (p : Nat) : (s.setPos p).blk.errCode = s.blk.errCode := rfl
@[simp] theorem State.setPos_blk_pos (s : State) (p : Nat) : (s.setPos p).blk.pos = BitVec.ofNat 5 p := rfl
@[simp] theorem State.setPos_blk_header (s : State) (p : Nat) : (s.setPos p).blk.header = s.blk.header := rfl
@[simp] theorem State.setPos_blk_result (s : State) (p : Nat) : (s.setPos p).blk.result = s.blk.result := rfl
@[simp] theorem State.setPos_blk_outBuf (s : State) (p : Nat) : (s.setPos p).blk.outBuf = s.blk.outBuf := rfl
@[simp] theorem State.setPos_blk_outLen (s : State) (p : Nat) : (s.setPos p).blk.outLen = s.blk.outLen := rfl
@[simp] theorem State.setPos_len (s : State) (p : Nat) : (s.setPos p).len = s.len := rfl
@[simp] theorem State.setPos_inBytes (s : State) (p : Nat) : (s.setPos p).inBytes = s.inBytes := rfl
@[simp] theorem State.setPos_text (s : State) (p : Nat) : (s.setPos p).text = s.text := rfl
@[simp] theorem State.setPos_inByte (s : State) (p : Nat) (i : Nat) : (s.setPos p).inByte i = s.inByte i := rfl

/-! `State.setHeader` -/
@[simp] theorem State.setHeader_pending (s : State) (h : Header) : (s.setHeader h).pending = s.pending := rfl
@[simp] theorem State.setHeader_host (s : State) (h : Header) : (s.setHeader h).host = s.host := rfl
@[simp] theorem State.setHeader_blk_status (s : State) (h : Header) : (s.setHeader h).blk.status = s.blk.status := rfl
@[simp] theorem State.setHeader_blk_errCode (s : State) (h : Header) : (s.setHeader h).blk.errCode = s.blk.errCode := rfl
@[simp] theorem State.setHeader_blk_pos (s : State) (h : Header) : (s.setHeader h).blk.pos = s.blk.pos := rfl
@[simp] theorem State.setHeader_blk_header (s : State) (h : Header) : (s.setHeader h).blk.header = h := rfl
@[simp] theorem State.setHeader_blk_result (s : State) (h : Header) : (s.setHeader h).blk.result = s.blk.result := rfl
@[simp] theorem State.setHeader_blk_outBuf (s : State) (h : Header) : (s.setHeader h).blk.outBuf = s.blk.outBuf := rfl
@[simp] theorem State.setHeader_blk_outLen (s : State) (h : Header) : (s.setHeader h).blk.outLen = s.blk.outLen := rfl
@[simp] theorem State.setHeader_len (s : State) (h : Header) : (s.setHeader h).len = s.len := rfl
@[simp] theorem State.setHeader_inBytes (s : State) (h : Header) : (s.setHeader h).inBytes = s.inBytes := rfl
@[simp] theorem State.setHeader_text (s : State) (h : Header) : (s.setHeader h).text = s.text := rfl
@[simp] theorem State.setHeader_inByte (s : State) (h : Header) (i : Nat) : (s.setHeader h).inByte i = s.inByte i := rfl

/-! `State.setResult` -/
@[simp] theorem State.setResult_pending (s : State) (r : FrameResult) : (s.setResult r).pending = s.pending := rfl
@[simp] theorem State.setResult_host (s : State) (r : FrameResult) : (s.setResult r).host = s.host := rfl
@[simp] theorem State.setResult_blk_status (s : State) (r : FrameResult) : (s.setResult r).blk.status = s.blk.status := rfl
@[simp] theorem State.setResult_blk_errCode (s : State) (r : FrameResult) : (s.setResult r).blk.errCode = s.blk.errCode := rfl
@[simp] theorem State.setResult_blk_pos (s : State) (r : FrameResult) : (s.setResult r).blk.pos = s.blk.pos := rfl
@[simp] theorem State.setResult_blk_header (s : State) (r : FrameResult) : (s.setResult r).blk.header = s.blk.header := rfl
@[simp] theorem State.setResult_blk_result (s : State) (r : FrameResult) : (s.setResult r).blk.result = r := rfl
@[simp] theorem State.setResult_blk_outBuf (s : State) (r : FrameResult) : (s.setResult r).blk.outBuf = s.blk.outBuf := rfl
@[simp] theorem State.setResult_blk_outLen (s : State) (r : FrameResult) : (s.setResult r).blk.outLen = s.blk.outLen := rfl
@[simp] theorem State.setResult_len (s : State) (r : FrameResult) : (s.setResult r).len = s.len := rfl
@[simp] theorem State.setResult_inBytes (s : State) (r : FrameResult) : (s.setResult r).inBytes = s.inBytes := rfl
@[simp] theorem State.setResult_text (s : State) (r : FrameResult) : (s.setResult r).text = s.text := rfl
@[simp] theorem State.setResult_inByte (s : State) (r : FrameResult) (i : Nat) : (s.setResult r).inByte i = s.inByte i := rfl

/-! `State.setStatus` -/
@[simp] theorem State.setStatus_pending (s : State) (v : BitVec 2) : (s.setStatus v).pending = s.pending := rfl
@[simp] theorem State.setStatus_host (s : State) (v : BitVec 2) : (s.setStatus v).host = s.host := rfl
@[simp] theorem State.setStatus_blk_status (s : State) (v : BitVec 2) : (s.setStatus v).blk.status = v := rfl
@[simp] theorem State.setStatus_blk_errCode (s : State) (v : BitVec 2) : (s.setStatus v).blk.errCode = s.blk.errCode := rfl
@[simp] theorem State.setStatus_blk_pos (s : State) (v : BitVec 2) : (s.setStatus v).blk.pos = s.blk.pos := rfl
@[simp] theorem State.setStatus_blk_header (s : State) (v : BitVec 2) : (s.setStatus v).blk.header = s.blk.header := rfl
@[simp] theorem State.setStatus_blk_result (s : State) (v : BitVec 2) : (s.setStatus v).blk.result = s.blk.result := rfl
@[simp] theorem State.setStatus_blk_outBuf (s : State) (v : BitVec 2) : (s.setStatus v).blk.outBuf = s.blk.outBuf := rfl
@[simp] theorem State.setStatus_blk_outLen (s : State) (v : BitVec 2) : (s.setStatus v).blk.outLen = s.blk.outLen := rfl
@[simp] theorem State.setStatus_len (s : State) (v : BitVec 2) : (s.setStatus v).len = s.len := rfl
@[simp] theorem State.setStatus_inBytes (s : State) (v : BitVec 2) : (s.setStatus v).inBytes = s.inBytes := rfl
@[simp] theorem State.setStatus_text (s : State) (v : BitVec 2) : (s.setStatus v).text = s.text := rfl
@[simp] theorem State.setStatus_inByte (s : State) (v : BitVec 2) (i : Nat) : (s.setStatus v).inByte i = s.inByte i := rfl

/-! `State.setOut` -/
@[simp] theorem State.setOut_pending (s : State) (bytes : List Byte) : (s.setOut bytes).pending = s.pending := rfl
@[simp] theorem State.setOut_host (s : State) (bytes : List Byte) : (s.setOut bytes).host = s.host := rfl
@[simp] theorem State.setOut_blk_status (s : State) (bytes : List Byte) : (s.setOut bytes).blk.status = s.blk.status := rfl
@[simp] theorem State.setOut_blk_errCode (s : State) (bytes : List Byte) : (s.setOut bytes).blk.errCode = s.blk.errCode := rfl
@[simp] theorem State.setOut_blk_pos (s : State) (bytes : List Byte) : (s.setOut bytes).blk.pos = s.blk.pos := rfl
@[simp] theorem State.setOut_blk_header (s : State) (bytes : List Byte) : (s.setOut bytes).blk.header = s.blk.header := rfl
@[simp] theorem State.setOut_blk_result (s : State) (bytes : List Byte) : (s.setOut bytes).blk.result = s.blk.result := rfl
@[simp] theorem State.setOut_blk_outBuf (s : State) (bytes : List Byte) : (s.setOut bytes).blk.outBuf = Memory.writeBytes [] 0 bytes := rfl
@[simp] theorem State.setOut_blk_outLen (s : State) (bytes : List Byte) : (s.setOut bytes).blk.outLen = BitVec.ofNat 5 bytes.length := rfl
@[simp] theorem State.setOut_len (s : State) (bytes : List Byte) : (s.setOut bytes).len = s.len := rfl
@[simp] theorem State.setOut_inBytes (s : State) (bytes : List Byte) : (s.setOut bytes).inBytes = s.inBytes := rfl
@[simp] theorem State.setOut_text (s : State) (bytes : List Byte) : (s.setOut bytes).text = s.text := rfl
@[simp] theorem State.setOut_inByte (s : State) (bytes : List Byte) (i : Nat) : (s.setOut bytes).inByte i = s.inByte i := rfl

/-! `State.setCmd` -/
@[simp] theorem State.setCmd_pending (s : State) (c : Byte) : (s.setCmd c).pending = s.pending := rfl
@[simp] theorem State.setCmd_host_inBuf (s : State) (c : Byte) : (s.setCmd c).host.inBuf = s.host.inBuf := rfl
@[simp] theorem State.setCmd_host_inLen (s : State) (c : Byte) : (s.setCmd c).host.inLen = s.host.inLen := rfl
@[simp] theorem State.setCmd_host_arg (s : State) (c : Byte) : (s.setCmd c).host.arg = s.host.arg := rfl
@[simp] theorem State.setCmd_host_txtIn (s : State) (c : Byte) : (s.setCmd c).host.txtIn = s.host.txtIn := rfl
@[simp] theorem State.setCmd_host_txtInLen (s : State) (c : Byte) : (s.setCmd c).host.txtInLen = s.host.txtInLen := rfl
@[simp] theorem State.setCmd_host_cmd (s : State) (c : Byte) : (s.setCmd c).host.cmd = c := rfl
@[simp] theorem State.setCmd_blk (s : State) (c : Byte) : (s.setCmd c).blk = s.blk := rfl

/-! `State.clear` -/
@[simp] theorem State.clear_pending (s : State) : s.clear.pending = s.pending := rfl
@[simp] theorem State.clear_host (s : State) : s.clear.host = s.host := rfl
@[simp] theorem State.clear_blk (s : State) : s.clear.blk = BlockRegs.cleared := rfl
@[simp] theorem State.clear_len (s : State) : s.clear.len = s.len := rfl
@[simp] theorem State.clear_inBytes (s : State) : s.clear.inBytes = s.inBytes := rfl
@[simp] theorem State.clear_text (s : State) : s.clear.text = s.text := rfl
@[simp] theorem State.clear_inByte (s : State) (i : Nat) : s.clear.inByte i = s.inByte i := rfl

/-! `State.takeError` -/
@[simp] theorem State.takeError_pending (s : State) (e : ErrorKind) : (s.takeError e).pending = s.pending := rfl
@[simp] theorem State.takeError_host (s : State) (e : ErrorKind) : (s.takeError e).host = s.host := rfl
@[simp] theorem State.takeError_blk (s : State) (e : ErrorKind) : (s.takeError e).blk = BlockRegs.failed e := rfl
@[simp] theorem State.takeError_len (s : State) (e : ErrorKind) : (s.takeError e).len = s.len := rfl
@[simp] theorem State.takeError_inBytes (s : State) (e : ErrorKind) : (s.takeError e).inBytes = s.inBytes := rfl
@[simp] theorem State.takeError_text (s : State) (e : ErrorKind) : (s.takeError e).text = s.text := rfl
@[simp] theorem State.takeError_inByte (s : State) (e : ErrorKind) (i : Nat) : (s.takeError e).inByte i = s.inByte i := rfl

/-! `State.succeed` -/
@[simp] theorem State.succeed_pending (s : State) (b : BlockRegs) : (s.succeed b).pending = s.pending := rfl
@[simp] theorem State.succeed_host (s : State) (b : BlockRegs) : (s.succeed b).host = s.host := rfl
@[simp] theorem State.succeed_blk_status (s : State) (b : BlockRegs) : (s.succeed b).blk.status = statusDone := rfl
@[simp] theorem State.succeed_blk_errCode (s : State) (b : BlockRegs) : (s.succeed b).blk.errCode = b.errCode := rfl
@[simp] theorem State.succeed_blk_pos (s : State) (b : BlockRegs) : (s.succeed b).blk.pos = b.pos := rfl
@[simp] theorem State.succeed_blk_header (s : State) (b : BlockRegs) : (s.succeed b).blk.header = b.header := rfl
@[simp] theorem State.succeed_blk_result (s : State) (b : BlockRegs) : (s.succeed b).blk.result = b.result := rfl
@[simp] theorem State.succeed_blk_outBuf (s : State) (b : BlockRegs) : (s.succeed b).blk.outBuf = b.outBuf := rfl
@[simp] theorem State.succeed_blk_outLen (s : State) (b : BlockRegs) : (s.succeed b).blk.outLen = b.outLen := rfl
@[simp] theorem State.succeed_len (s : State) (b : BlockRegs) : (s.succeed b).len = s.len := rfl
@[simp] theorem State.succeed_inBytes (s : State) (b : BlockRegs) : (s.succeed b).inBytes = s.inBytes := rfl
@[simp] theorem State.succeed_text (s : State) (b : BlockRegs) : (s.succeed b).text = s.text := rfl
@[simp] theorem State.succeed_inByte (s : State) (b : BlockRegs) (i : Nat) : (s.succeed b).inByte i = s.inByte i := rfl

/-! The cleared and the failed registers -/

@[simp] theorem State.clear_cursor (s : State) : s.clear.cursor = 0 := rfl
@[simp] theorem State.clear_urlCursor (s : State) : s.clear.urlCursor = 0 := rfl

/-- With the cursor at 0 the payload slice is the whole of `IN_BUF[0 .. IN_LEN)`. -/
@[simp] theorem State.clear_payload (s : State) : s.clear.payload = s.inBytes := rfl

@[simp] theorem BlockRegs.failed_status (e : ErrorKind) : (BlockRegs.failed e).status = statusDoneErr := rfl
@[simp] theorem BlockRegs.failed_errCode (e : ErrorKind) : (BlockRegs.failed e).errCode = errorCode e := rfl
@[simp] theorem BlockRegs.failed_pos (e : ErrorKind) : (BlockRegs.failed e).pos = 0 := rfl
@[simp] theorem BlockRegs.failed_header (e : ErrorKind) : (BlockRegs.failed e).header = Header.cleared := rfl
@[simp] theorem BlockRegs.failed_result (e : ErrorKind) : (BlockRegs.failed e).result = FrameResult.cleared := rfl
@[simp] theorem BlockRegs.failed_outBuf (e : ErrorKind) : (BlockRegs.failed e).outBuf = [] := rfl
@[simp] theorem BlockRegs.failed_outLen (e : ErrorKind) : (BlockRegs.failed e).outLen = 0 := rfl

/-- Clearing twice is clearing once: a command's start does not depend on the one before (R211). -/
@[simp] theorem State.clear_clear (s : State) : s.clear.clear = s.clear := rfl

/-- Two updates of the block-written group: the later one stands. -/
@[simp] theorem State.setBlk_setBlk (s : State) (a b : BlockRegs) : (s.setBlk a).setBlk b = s.setBlk b := rfl

end Sys2Proof.Machine
end

