-- ==== Sys2Proof/Laws/Ops.lean ====
section
/-! SUPPORT. One lemma per shared operation that says everything it can do: the checks, how a row and a command end,
the structure at the cursor, the text output, the fetch. -/

namespace Sys2Proof.Machine

/-! ### Checks and raising -/

@[simp] theorem require_true (e : ErrorKind) : require true e = .ok () := rfl

@[simp] theorem require_false (e : ErrorKind) : require false e = .error (.raise e) := rfl

/-- A check passes exactly when its condition holds. -/
theorem require_ok_iff {c : Bool} {e : ErrorKind} {u : Unit} : require c e = .ok u ↔ c = true := by
  cases c <;> simp

/-- A check fails exactly when its condition does not hold, with its own error. -/
theorem require_error_iff {c : Bool} {e : ErrorKind} {q : Stop} :
    require c e = .error q ↔ c = false ∧ q = .raise e := by
  cases c <;> simp [eq_comm]

/-- Peels the first part of a sequence that succeeds. -/
theorem bind_ok_iff {α β ε : Type} {x : Except ε α} {f : α → Except ε β} {r : β} :
    (x >>= f) = .ok r ↔ ∃ a, x = .ok a ∧ f a = .ok r := by
  cases x with
  | error e => simp [bind, Except.bind]
  | ok a => simp [bind, Except.bind]

/-- Peels the first part of a sequence that stops. -/
theorem bind_error_iff {α β ε : Type} {x : Except ε α} {f : α → Except ε β} {e : ε} :
    (x >>= f) = .error e ↔ x = .error e ∨ ∃ a, x = .ok a ∧ f a = .error e := by
  cases x with
  | error e' => simp [bind, Except.bind]
  | ok a => simp [bind, Except.bind]

/-! ### How a row and a command end -/

@[simp] theorem finishRow_ok (s t : State) : finishRow s (.ok t) = .next t := rfl

@[simp] theorem finishRow_raise (s : State) (e : ErrorKind) : finishRow s (.error (.raise e)) = .next (s.takeError e) :=
  rfl

@[simp] theorem finishRow_fault (s : State) (f : Fault) : finishRow s (.error (.fault f)) = .fault f := rfl

/-- A row that answers a next state had its effect or took an error. -/
theorem finishRow_next {s t : State} {x : Except Stop State} (h : finishRow s x = .next t) :
    x = .ok t ∨ ∃ e, x = .error (.raise e) ∧ t = s.takeError e := by
  rcases x with (e | f) | t'
  · exact .inr ⟨e, rfl, by simpa using h.symm⟩
  · simp at h
  · exact .inl (by simpa using h)

theorem runCommand_ok {s t : State} {f : State → Except Stop State} (h : f s.clear = .ok t) :
    runCommand s f = .next (t.setStatus statusDone) := by simp [runCommand, h]

theorem runCommand_raise {s : State} {f : State → Except Stop State} {e : ErrorKind}
    (h : f s.clear = .error (.raise e)) : runCommand s f = .next (s.takeError e) := by simp [runCommand, h]

theorem runCommand_fault {s : State} {f : State → Except Stop State} {q : Fault}
    (h : f s.clear = .error (.fault q)) : runCommand s f = .fault q := by simp [runCommand, h]

/-- A command that answers a next state reported a success or took an error. -/
theorem runCommand_next {s t : State} {f : State → Except Stop State} (h : runCommand s f = .next t) :
    (∃ u, f s.clear = .ok u ∧ t = u.setStatus statusDone) ∨
    ∃ e, f s.clear = .error (.raise e) ∧ t = s.takeError e := by
  unfold runCommand at h
  split at h
  · rename_i u hu; exact .inl ⟨u, hu, by simpa using h.symm⟩
  · rename_i e he; exact .inr ⟨e, he, by simpa using h.symm⟩
  · cases h

/-! ### The structure at the cursor -/

/-- Steps 1 to 4 of R101 pass exactly when the structure fits, and give its length byte. -/
theorem adStructure_ok_iff {s : State} {l : Nat} :
    adStructure s = .ok l ↔ s.structureFits ∧ l = (s.inByte s.cursor).toNat := by
  have hz : s.inByte s.cursor ≠ 0 ↔ 0 < (s.inByte s.cursor).toNat := by
    rw [ne_eq, ← BitVec.toNat_inj]; simp [Nat.pos_iff_ne_zero]
  simp only [adStructure, State.structureFits, hz, bind_ok_iff, require_ok_iff, decide_eq_true_eq, pure,
    Except.pure, Except.ok.injEq]
  constructor
  · rintro ⟨_, h1, _, h2, _, h3, h4⟩; exact ⟨⟨h1, h2, h3⟩, h4.symm⟩
  · rintro ⟨⟨h1, h2, h3⟩, h4⟩; exact ⟨(), h1, (), h2, (), h3, h4.symm⟩

/-- A structure that does not fit raises `NotABeaconAdvertisement` or `BoundsViolation`, in the order of R101. -/
theorem adStructure_error {s : State} {q : Stop} (h : adStructure s = .error q) :
    (q = .raise .notABeaconAdvertisement ∧ (s.len ≤ s.cursor ∨ s.inByte s.cursor = 0)) ∨
    (q = .raise .boundsViolation ∧ s.cursor < s.len ∧ s.inByte s.cursor ≠ 0 ∧
      s.len < s.cursor + 1 + (s.inByte s.cursor).toNat) := by
  have hz : s.inByte s.cursor = 0 ↔ ¬ 0 < (s.inByte s.cursor).toNat := by
    rw [← BitVec.toNat_inj]; simp
  simp only [adStructure, bind_error_iff, require_error_iff, require_ok_iff, decide_eq_true_eq,
    decide_eq_false_iff_not, pure, Except.pure, reduceCtorEq, and_false, or_false, exists_const] at h
  obtain ⟨h1, rfl⟩ | ⟨h1, ⟨h2, rfl⟩ | ⟨h2, h3, rfl⟩⟩ := h
  · exact .inl ⟨rfl, .inl (by omega)⟩
  · exact .inl ⟨rfl, .inr (hz.mpr h2)⟩
  · exact .inr ⟨rfl, h1, fun h => hz.mp h h2, by omega⟩

/-! ### Text output -/

/-- Appending succeeds exactly when the characters fit in `R_URL`. -/
theorem emit_ok_iff {chars : List Byte} {s t : State} :
    emit chars s = .ok t ↔ s.urlCursor + chars.length ≤ Config.rUrlSize ∧
      t = s.setResult { s.blk.result with
        url := s.blk.result.url.writeBytes s.urlCursor chars,
        urlLen := BitVec.ofNat 7 (s.urlCursor + chars.length) } := by
  unfold emit
  split <;> simp_all [eq_comm]

/-- Appending never raises an error of the block: it fits, or the model stops. -/
theorem emit_error {chars : List Byte} {s : State} {q : Stop} (h : emit chars s = .error q) :
    q = .fault .urlBankOverflow ∧ Config.rUrlSize < s.urlCursor + chars.length := by
  unfold emit at h
  split at h
  · cases h
  · exact ⟨by simpa using h.symm, by omega⟩

/-- The output cursor after an append. -/
theorem emit_urlCursor {chars : List Byte} {s t : State} (h : emit chars s = .ok t) :
    t.urlCursor = s.urlCursor + chars.length := by
  obtain ⟨hfit, rfl⟩ := emit_ok_iff.mp h
  have : s.urlCursor + chars.length < 2 ^ 7 := by simp [Config.rUrlSize] at hfit; omega
  simp [State.urlCursor, State.setResult, State.setBlk] at this ⊢
  omega

/-! ### The fetch -/

/-- What a step finds, by the oldest pending event. -/
theorem fetch_cases (s : State) :
    (s.pending = [] ∧ fetch s = .idle) ∨
    (∃ c rest, s.pending = .writeCmd c :: rest ∧
      fetch s = .command (decodeByte .cmd c) ((State.mk s.host s.blk rest).setCmd c)) ∨
    (∃ e rest, s.pending = e :: rest ∧ (∀ c, e ≠ .writeCmd c) ∧
      fetch s = .access (e.apply (State.mk s.host s.blk rest))) := by
  unfold fetch
  cases hp : s.pending with
  | nil => exact .inl ⟨rfl, rfl⟩
  | cons e rest =>
    right
    cases e with
    | writeCmd c => exact .inl ⟨c, rest, rfl, rfl⟩
    | writeInBuf i b => exact .inr ⟨_, rest, rfl, by simp, rfl⟩
    | writeInLen n => exact .inr ⟨_, rest, rfl, by simp, rfl⟩
    | writeArg b => exact .inr ⟨_, rest, rfl, by simp, rfl⟩
    | writeTxtIn i b => exact .inr ⟨_, rest, rfl, by simp, rfl⟩
    | writeTxtInLen n => exact .inr ⟨_, rest, rfl, by simp, rfl⟩
    | read r => exact .inr ⟨_, rest, rfl, by simp, rfl⟩
    | reset a b => exact .inr ⟨_, rest, rfl, by simp, rfl⟩

end Sys2Proof.Machine
end

