-- ==== Sys2Proof/Laws/PerInstr.lean ====
section
/-! SUPPORT. The facts about every instruction as syntax, one lemma per constructor. -/

namespace Sys2Proof.Laws

/-- A row of spec/opcode_table.json: the bits it fixes and their values. -/
def TableRow.maskMatch : Instr → Byte × Byte
  | .adFlags => (0xFF, 0x01)
  | .adUuid16 => (0xFF, 0x03)
  | .adSvcdata16 => (0xFF, 0x16)
  | .adSkip _ => (0x00, 0x00)
  | .frameUid => (0xFF, 0x00)
  | .frameUrl => (0xFF, 0x10)
  | .frameTlm => (0xFF, 0x20)
  | .frameInvalid _ => (0x00, 0x00)
  | .urlPfx0 => (0xFF, 0x00)
  | .urlPfx1 => (0xFF, 0x01)
  | .urlPfx2 => (0xFF, 0x02)
  | .urlPfx3 => (0xFF, 0x03)
  | .urlPfxinvalid _ => (0x00, 0x00)
  | .urlSfx0 => (0xFF, 0x00)
  | .urlSfx1 => (0xFF, 0x01)
  | .urlSfx2 => (0xFF, 0x02)
  | .urlSfx3 => (0xFF, 0x03)
  | .urlSfx4 => (0xFF, 0x04)
  | .urlSfx5 => (0xFF, 0x05)
  | .urlSfx6 => (0xFF, 0x06)
  | .urlSfx7 => (0xFF, 0x07)
  | .urlSfx8 => (0xFF, 0x08)
  | .urlSfx9 => (0xFF, 0x09)
  | .urlSfx10 => (0xFF, 0x0A)
  | .urlSfx11 => (0xFF, 0x0B)
  | .urlSfx12 => (0xFF, 0x0C)
  | .urlSfx13 => (0xFF, 0x0D)
  | .urlLit _ => (0x00, 0x00)
  | .cmdDecode => (0xFF, 0x01)
  | .cmdScan => (0xFF, 0x02)
  | .cmdFrame => (0xFF, 0x03)
  | .cmdUrldec => (0xFF, 0x04)
  | .cmdUrlenc => (0xFF, 0x05)
  | .cmdBuild => (0xFF, 0x06)
  | .cmdReserved _ => (0x00, 0x00)

/-- The byte of a well-formed instruction carries its table row's bits, and is one whole word of 8 bits. -/
def TableRow.Statement (i : Instr) : Prop :=
  wellFormed i = true →
    (encode i).length = 1 ∧ encodeByte i &&& (TableRow.maskMatch i).1 = (TableRow.maskMatch i).2

theorem TableRow.adFlags : TableRow.Statement .adFlags := fun _ => ⟨rfl, rfl⟩
theorem TableRow.adUuid16 : TableRow.Statement .adUuid16 := fun _ => ⟨rfl, rfl⟩
theorem TableRow.adSvcdata16 : TableRow.Statement .adSvcdata16 := fun _ => ⟨rfl, rfl⟩
theorem TableRow.adSkip (t : Byte) : TableRow.Statement (.adSkip t) := fun _ => ⟨rfl, by simp [TableRow.maskMatch]⟩
theorem TableRow.frameUid : TableRow.Statement .frameUid := fun _ => ⟨rfl, rfl⟩
theorem TableRow.frameUrl : TableRow.Statement .frameUrl := fun _ => ⟨rfl, rfl⟩
theorem TableRow.frameTlm : TableRow.Statement .frameTlm := fun _ => ⟨rfl, rfl⟩
theorem TableRow.frameInvalid (ft : Byte) : TableRow.Statement (.frameInvalid ft) := fun _ => ⟨rfl, by simp [TableRow.maskMatch]⟩
theorem TableRow.urlPfx0 : TableRow.Statement .urlPfx0 := fun _ => ⟨rfl, rfl⟩
theorem TableRow.urlPfx1 : TableRow.Statement .urlPfx1 := fun _ => ⟨rfl, rfl⟩
theorem TableRow.urlPfx2 : TableRow.Statement .urlPfx2 := fun _ => ⟨rfl, rfl⟩
theorem TableRow.urlPfx3 : TableRow.Statement .urlPfx3 := fun _ => ⟨rfl, rfl⟩
theorem TableRow.urlPfxinvalid (s : Byte) : TableRow.Statement (.urlPfxinvalid s) := fun _ => ⟨rfl, by simp [TableRow.maskMatch]⟩
theorem TableRow.urlSfx0 : TableRow.Statement .urlSfx0 := fun _ => ⟨rfl, rfl⟩
theorem TableRow.urlSfx1 : TableRow.Statement .urlSfx1 := fun _ => ⟨rfl, rfl⟩
theorem TableRow.urlSfx2 : TableRow.Statement .urlSfx2 := fun _ => ⟨rfl, rfl⟩
theorem TableRow.urlSfx3 : TableRow.Statement .urlSfx3 := fun _ => ⟨rfl, rfl⟩
theorem TableRow.urlSfx4 : TableRow.Statement .urlSfx4 := fun _ => ⟨rfl, rfl⟩
theorem TableRow.urlSfx5 : TableRow.Statement .urlSfx5 := fun _ => ⟨rfl, rfl⟩
theorem TableRow.urlSfx6 : TableRow.Statement .urlSfx6 := fun _ => ⟨rfl, rfl⟩
theorem TableRow.urlSfx7 : TableRow.Statement .urlSfx7 := fun _ => ⟨rfl, rfl⟩
theorem TableRow.urlSfx8 : TableRow.Statement .urlSfx8 := fun _ => ⟨rfl, rfl⟩
theorem TableRow.urlSfx9 : TableRow.Statement .urlSfx9 := fun _ => ⟨rfl, rfl⟩
theorem TableRow.urlSfx10 : TableRow.Statement .urlSfx10 := fun _ => ⟨rfl, rfl⟩
theorem TableRow.urlSfx11 : TableRow.Statement .urlSfx11 := fun _ => ⟨rfl, rfl⟩
theorem TableRow.urlSfx12 : TableRow.Statement .urlSfx12 := fun _ => ⟨rfl, rfl⟩
theorem TableRow.urlSfx13 : TableRow.Statement .urlSfx13 := fun _ => ⟨rfl, rfl⟩
theorem TableRow.urlLit (c : Byte) : TableRow.Statement (.urlLit c) := fun _ => ⟨rfl, by simp [TableRow.maskMatch]⟩
theorem TableRow.cmdDecode : TableRow.Statement .cmdDecode := fun _ => ⟨rfl, rfl⟩
theorem TableRow.cmdScan : TableRow.Statement .cmdScan := fun _ => ⟨rfl, rfl⟩
theorem TableRow.cmdFrame : TableRow.Statement .cmdFrame := fun _ => ⟨rfl, rfl⟩
theorem TableRow.cmdUrldec : TableRow.Statement .cmdUrldec := fun _ => ⟨rfl, rfl⟩
theorem TableRow.cmdUrlenc : TableRow.Statement .cmdUrlenc := fun _ => ⟨rfl, rfl⟩
theorem TableRow.cmdBuild : TableRow.Statement .cmdBuild := fun _ => ⟨rfl, rfl⟩
theorem TableRow.cmdReserved (code : Byte) : TableRow.Statement (.cmdReserved code) := fun _ => ⟨rfl, by simp [TableRow.maskMatch]⟩

end Sys2Proof.Laws
end

