-- ==== Sys2Proof/Laws/UrlCodec.lean ====
section
/-! SUPPORT. Laws of the text functions: what a match says, and the encoder's walk in terms of the rest of the text. -/

namespace Sys2Proof.Machine

/-- R150: a string matches exactly when it is a prefix of the text from there on. -/
theorem matchesAt_iff (str rest : List Byte) : matchesAt str rest = true ↔ str <+: rest := by
  simp [matchesAt, List.isPrefixOf_iff_prefix]

/-- Passing over the rest of a matched suffix is dropping it from the text. -/
theorem encodeBody_skip (text : List Byte) (skip o : Nat) :
    encodeBody text skip o = encodeBody (text.drop skip) 0 o := by
  induction skip generalizing text with
  | zero => rfl
  | succ n ih =>
    cases text with
    | nil => simp [encodeBody]
    | cons c rest => simp [encodeBody, ih]

@[simp] theorem urlEncode_nil : urlEncode [] = .error .invalidArgument := rfl

theorem UrlSymbol.encodable_literal (c : Byte) : (UrlSymbol.literal c).encodable = true ↔ 14 ≤ c.toNat := by
  simp [UrlSymbol.encodable]

@[simp] theorem UrlSymbol.encodable_suffix (k : Nat) : (UrlSymbol.suffix k).encodable = true := rfl

theorem greedyParse_nil (text : List Byte) : greedyParse text [] = true ↔ text = [] := by simp [greedyParse]

theorem greedyParse_suffix (text : List Byte) (k : Nat) (syms : List UrlSymbol) :
    greedyParse text (.suffix k :: syms) = true ↔
      beginsWithSuffix k text ∧ greedyParse (text.drop (suffixRom k).length) syms = true := by
  simp only [greedyParse, Bool.and_eq_true, decide_eq_true_eq]

theorem greedyParse_literal (text : List Byte) (c : Byte) (syms : List UrlSymbol) :
    greedyParse text (.literal c :: syms) = true ↔
      text.head? = some c ∧ beginsWithNoSuffix text ∧ greedyParse text.tail syms = true := by
  simp only [greedyParse, Bool.and_eq_true, decide_eq_true_eq, and_assoc]

end Sys2Proof.Machine
end

