-- ==== Sys2Proof/Tests/Slice0.lean ====
section
/-! SUPPORT. The tests: well-formedness, decoding of written-out words, small runs of one instruction with the expected
values of spec/95_test_vectors.md (the vector is named beside each), and a witness for the hypotheses of each statement
of Certificates/Slice0/Obligations.lean. -/

namespace Sys2Proof.Tests

-- One theorem after another: each waits for the kernel, and a hundred waiting threads is too many.
set_option Elab.async false

open Sys2Proof Sys2Proof.Machine

/-! ### Helpers -/

/-- A block as the host may have loaded it, with nothing decoded: `IN_BUF`, `ARG` and `TXT_IN` with their lengths. -/
def loaded (bytes : List Byte) (arg : Byte := 0) (text : List Byte := []) : State :=
  { State.reset with host :=
    { inBuf := Memory.writeBytes [] 0 bytes, inLen := BitVec.ofNat 5 bytes.length, arg := arg
      txtIn := Memory.writeBytes [] 0 text, txtInLen := BitVec.ofNat 7 text.length, cmd := 0 } }

/-- The same with the scan cursor at `p`. -/
def loadedAt (p : Nat) (bytes : List Byte) : State := (loaded bytes).setPos p

/-- A state with the given text in `R_URL`. -/
def withText (text : List Byte) : State :=
  State.reset.setResult
    { FrameResult.cleared with url := Memory.writeBytes [] 0 text, urlLen := BitVec.ofNat 7 text.length }

/-- The outcome is a next state with the property. -/
def passes (o : Host.Outcome State Fault Refusal) (p : State → Bool) : Bool :=
  match o with
  | .next t => p t
  | .fault _ => false
  | .refused _ => false

/-- The outcome is the next state with exactly this block-written group. -/
def leaves (o : Host.Outcome State Fault Refusal) (b : BlockRegs) : Bool := passes o fun t => t.blk == b

/-- The outcome is the error entry of `e`. -/
def raises (o : Host.Outcome State Fault Refusal) (e : ErrorKind) : Bool := leaves o (BlockRegs.failed e)

theorem next_of_passes {o : Host.Outcome State Fault Refusal} {p : State → Bool} (h : passes o p = true) :
    ∃ t, o = .next t ∧ p t = true := by
  cases o with
  | next t => exact ⟨t, rfl, h⟩
  | fault _ => cases h
  | refused _ => cases h

/-- The buffer of W1. -/
def w1 : List Byte :=
  [0x02, 0x01, 0x06, 0x03, 0x03, 0xAA, 0xFE, 0x03, 0x16, 0xAA, 0xFE, 0x10, 0x03, 0x03, 0x67, 0x6F, 0x6F, 0x67, 0x6C,
    0x65]

/-- The payload of T-UID-1. -/
def uid1 : List Byte := [0xEB, 0, 1, 2, 3, 4, 5, 6, 7, 8, 9, 0xA0, 0xA1, 0xA2, 0xA3, 0xA4, 0xA5]

/-- The payload of T-TLM-1. -/
def tlm1 : List Byte := [0x00, 0x0B, 0xB8, 0x19, 0x80, 0x00, 0x00, 0x00, 0x2A, 0x00, 0x00, 0x03, 0xE8]

/-- `http://` -/
def http : List Byte := [0x68, 0x74, 0x74, 0x70, 0x3A, 0x2F, 0x2F]

/-- `https://` -/
def https : List Byte := [0x68, 0x74, 0x74, 0x70, 0x73, 0x3A, 0x2F, 0x2F]

/-- `google` -/
def google : List Byte := [0x67, 0x6F, 0x6F, 0x67, 0x6C, 0x65]

/-- The header every packet of the builder decodes to, and that of W1. -/
def beaconHeader (ft : Byte) : Header :=
  { flagsValid := 1, flags := 0x06, svcUuid := 0xFEAA, svcDataType := 0xFEAA, frameType := ft }

/-! ### Well-formedness: each check refuses an ill-formed term -/

theorem test_adSkip_claims_no_named_type :
    wellFormed (.adSkip 0x01) = false ∧ wellFormed (.adSkip 0x03) = false ∧ wellFormed (.adSkip 0x16) = false ∧
    wellFormed (.adSkip 0x09) = true := by decide

theorem test_frameInvalid_claims_no_frame_type :
    wellFormed (.frameInvalid 0x00) = false ∧ wellFormed (.frameInvalid 0x10) = false ∧
    wellFormed (.frameInvalid 0x20) = false ∧ wellFormed (.frameInvalid 0x30) = true := by decide

theorem test_urlPfxinvalid_starts_at_4 :
    wellFormed (.urlPfxinvalid 3) = false ∧ wellFormed (.urlPfxinvalid 4) = true := by decide

theorem test_urlLit_starts_at_14 : wellFormed (.urlLit 13) = false ∧ wellFormed (.urlLit 14) = true := by decide

theorem test_cmdReserved_is_0_or_from_7 :
    wellFormed (.cmdReserved 1) = false ∧ wellFormed (.cmdReserved 6) = false ∧
    wellFormed (.cmdReserved 0) = true ∧ wellFormed (.cmdReserved 7) = true := by decide

/-! ### Decoding: a word of every row, written out from 30_encoding.md -/

/-- R76. -/
theorem test_decode_ad :
    decode .ad [0b00000001, 0xAB] = .ok (.adFlags, [0xAB]) ∧ decode .ad [0b00000011] = .ok (.adUuid16, []) ∧
    decode .ad [0b00010110] = .ok (.adSvcdata16, []) ∧
    decode .ad [0b00001001] = .ok (.adSkip 0b00001001, []) := by decide

/-- R77. -/
theorem test_decode_frame :
    decode .frame [0b00000000] = .ok (.frameUid, []) ∧ decode .frame [0b00010000] = .ok (.frameUrl, []) ∧
    decode .frame [0b00100000] = .ok (.frameTlm, []) ∧
    decode .frame [0b00110000] = .ok (.frameInvalid 0b00110000, []) := by decide

/-- R78. -/
theorem test_decode_scheme :
    decode .scheme [0b00000000] = .ok (.urlPfx0, []) ∧ decode .scheme [0b00000001] = .ok (.urlPfx1, []) ∧
    decode .scheme [0b00000010] = .ok (.urlPfx2, []) ∧ decode .scheme [0b00000011] = .ok (.urlPfx3, []) ∧
    decode .scheme [0b11111111] = .ok (.urlPfxinvalid 0b11111111, []) := by decide

/-- R79. -/
theorem test_decode_sym :
    decodeByte .sym 0b00000000 = .urlSfx0 ∧ decodeByte .sym 0b00000001 = .urlSfx1 ∧
    decodeByte .sym 0b00000010 = .urlSfx2 ∧ decodeByte .sym 0b00000011 = .urlSfx3 ∧
    decodeByte .sym 0b00000100 = .urlSfx4 ∧ decodeByte .sym 0b00000101 = .urlSfx5 ∧
    decodeByte .sym 0b00000110 = .urlSfx6 ∧ decodeByte .sym 0b00000111 = .urlSfx7 ∧
    decodeByte .sym 0b00001000 = .urlSfx8 ∧ decodeByte .sym 0b00001001 = .urlSfx9 ∧
    decodeByte .sym 0b00001010 = .urlSfx10 ∧ decodeByte .sym 0b00001011 = .urlSfx11 ∧
    decodeByte .sym 0b00001100 = .urlSfx12 ∧ decodeByte .sym 0b00001101 = .urlSfx13 ∧
    decodeByte .sym 0b00001110 = .urlLit 0b00001110 ∧ decodeByte .sym 0b01100111 = .urlLit 0b01100111 := by decide

/-- R80. -/
theorem test_decode_cmd :
    decode .cmd [0b00000001] = .ok (.cmdDecode, []) ∧ decode .cmd [0b00000010] = .ok (.cmdScan, []) ∧
    decode .cmd [0b00000011] = .ok (.cmdFrame, []) ∧ decode .cmd [0b00000100] = .ok (.cmdUrldec, []) ∧
    decode .cmd [0b00000101] = .ok (.cmdUrlenc, []) ∧ decode .cmd [0b00000110] = .ok (.cmdBuild, []) ∧
    decode .cmd [0b00000000] = .ok (.cmdReserved 0b00000000, []) ∧
    decode .cmd [0b10000001] = .ok (.cmdReserved 0b10000001, []) := by decide

theorem test_decode_no_byte : decode .ad [] = .error .noByte := by decide

/-- A table word is a value written to `CMD` (log 2); no other width is an instruction. -/
theorem test_decodeTableWord :
    decodeTableWord 8 0x06 = some .cmdBuild ∧ decodeTableWord 8 0xFF = some (.cmdReserved 0xFF) ∧
    decodeTableWord 16 0x06 = none ∧ decodeTableWord 8 0x106 = none := by decide

/-! ### The AD rows on their own -/

/-- P1 step 2. -/
theorem test_adFlags : leaves (exec .adFlags (loadedAt 0 w1)) { BlockRegs.cleared with
    pos := 3, header := { Header.cleared with flagsValid := 1, flags := 0x06 } } = true := by decide +kernel

/-- T-SCAN-9. -/
theorem test_adFlags_without_its_byte : raises (exec .adFlags (loadedAt 0 [0x01, 0x01])) .boundsViolation = true := by
  decide +kernel

/-- P1 step 4. -/
theorem test_adUuid16 : leaves (exec .adUuid16 (loadedAt 3 w1)) { BlockRegs.cleared with
    pos := 7, header := { Header.cleared with svcUuid := 0xFEAA } } = true := by decide +kernel

/-- T-SCAN-16: `FE AA` is 0xAAFE. -/
theorem test_adUuid16_byte_order :
    raises (exec .adUuid16 (loadedAt 0 [0x03, 0x03, 0xFE, 0xAA, 0x04, 0x16, 0xAA, 0xFE, 0x10, 0x00]))
      .notABeaconAdvertisement = true := by decide +kernel

/-- P1 step 6: the cursor goes past the frame-type byte, not by the declared length. -/
theorem test_adSvcdata16 : leaves (exec .adSvcdata16 (loadedAt 7 w1)) { BlockRegs.cleared with
    pos := 12, header := { Header.cleared with svcDataType := 0xFEAA, frameType := 0x10 } } = true := by
  decide +kernel

/-- T-SCAN-17. -/
theorem test_adSvcdata16_frame_type :
    raises (exec .adSvcdata16 (loadedAt 0 [0x04, 0x16, 0xAA, 0xFE, 0x30, 0x00, 0x00])) .invalidFrameType = true := by
  decide +kernel

/-- T-SCAN-2, first structure. -/
theorem test_adSkip : leaves (exec (.adSkip 0x09) (loadedAt 0 [0x04, 0x09, 0x41, 0x42, 0x43]))
    { BlockRegs.cleared with pos := 5 } = true := by decide +kernel

/-- T-SCAN-6. -/
theorem test_adSkip_overlong :
    raises (exec (.adSkip 0x09) (loadedAt 0 [0x05, 0x09, 0x41])) .boundsViolation = true := by decide +kernel

/-! ### The frame rows on their own -/

/-- T-UID-2. -/
theorem test_frameUid : leaves (exec .frameUid (loaded (uid1 ++ [0x12, 0x34]))) { BlockRegs.cleared with
    result := { FrameResult.cleared with
      kind := 1, txpower := 0xEB
      nspace := [(1, 1), (2, 2), (3, 3), (4, 4), (5, 5), (6, 6), (7, 7), (8, 8), (9, 9)]
      inst := [(0, 0xA0), (1, 0xA1), (2, 0xA2), (3, 0xA3), (4, 0xA4), (5, 0xA5)]
      rsvdPresent := 1, rsvd := [(0, 0x12), (1, 0x34)] } } = true := by decide +kernel

/-- T-UID-4. -/
theorem test_frameUid_18_bytes : raises (exec .frameUid (loaded (uid1 ++ [0x00]))) .lengthMismatch = true := by
  decide +kernel

/-- T-URL-11, through its length and its last four characters (`.gov`). -/
theorem test_frameUrl : passes (exec .frameUrl (loaded [0xFC, 0x00, 0x61, 0x09, 0x0A, 0x0D])) (fun t =>
    t.blk.result.kind == 2 && t.blk.result.txpower == 0xFC && t.blk.result.urlLen == 24 &&
      t.blk.result.url.readBytes 20 5 == [0x2E, 0x67, 0x6F, 0x76, 0x00]) = true := by decide +kernel

/-- T-URL-9: the length before the scheme. -/
theorem test_frameUrl_length_first :
    raises (exec .frameUrl (loaded ([0x00, 0x09] ++ List.replicate 17 0x61))) .lengthMismatch = true := by
  decide +kernel

/-- T-TLM-8. -/
theorem test_frameTlm :
    leaves (exec .frameTlm (loaded [0x01, 0, 0, 0x7F, 0xFF, 0x12, 0x34, 0x56, 0x78, 0x9A, 0xBC, 0xDE, 0xF0]))
      { BlockRegs.cleared with result := { FrameResult.cleared with
        kind := 3, version := 1, tempInt := 0x7F, tempFrac := 0xFF, advCount := 305419896, time := 2596069104 } } =
      true := by decide +kernel

/-- T-TLM-4. -/
theorem test_frameTlm_12_bytes : raises (exec .frameTlm (loaded (tlm1.take 12))) .lengthMismatch = true := by
  decide +kernel

/-- T-FT-3. -/
theorem test_frameInvalid : raises (exec (.frameInvalid 0x01) (loaded uid1)) .invalidFrameType = true := by
  decide +kernel

/-! ### The scheme and symbol rows on their own: the strings of R140 and R141 -/

/-- The row leaves exactly this text in `R_URL`. -/
def writesText (i : Instr) (s : State) (text : List Byte) : Bool := leaves (exec i s) (withText text).blk

theorem test_urlPfx0 : writesText .urlPfx0 State.reset (http ++ [0x77, 0x77, 0x77, 0x2E]) = true := by decide +kernel

theorem test_urlPfx1 : writesText .urlPfx1 State.reset (https ++ [0x77, 0x77, 0x77, 0x2E]) = true := by
  decide +kernel

theorem test_urlPfx2 : writesText .urlPfx2 State.reset http = true := by decide +kernel

theorem test_urlPfx3 : writesText .urlPfx3 State.reset https = true := by decide +kernel

/-- T-URL-7. -/
theorem test_urlPfxinvalid : raises (exec (.urlPfxinvalid 4) State.reset) .invalidScheme = true := by decide +kernel

theorem test_urlSfx0 : writesText .urlSfx0 (withText http) (http ++ [0x2E, 0x63, 0x6F, 0x6D, 0x2F]) = true := by
  decide +kernel

theorem test_urlSfx1 : writesText .urlSfx1 (withText http) (http ++ [0x2E, 0x6F, 0x72, 0x67, 0x2F]) = true := by
  decide +kernel

theorem test_urlSfx2 : writesText .urlSfx2 (withText http) (http ++ [0x2E, 0x65, 0x64, 0x75, 0x2F]) = true := by
  decide +kernel

theorem test_urlSfx3 : writesText .urlSfx3 (withText http) (http ++ [0x2E, 0x6E, 0x65, 0x74, 0x2F]) = true := by
  decide +kernel

theorem test_urlSfx4 : writesText .urlSfx4 (withText http) (http ++ [0x2E, 0x69, 0x6E, 0x66, 0x6F, 0x2F]) = true := by
  decide +kernel

theorem test_urlSfx5 : writesText .urlSfx5 (withText http) (http ++ [0x2E, 0x62, 0x69, 0x7A, 0x2F]) = true := by
  decide +kernel

theorem test_urlSfx6 : writesText .urlSfx6 (withText http) (http ++ [0x2E, 0x67, 0x6F, 0x76, 0x2F]) = true := by
  decide +kernel

theorem test_urlSfx7 : writesText .urlSfx7 (withText http) (http ++ [0x2E, 0x63, 0x6F, 0x6D]) = true := by
  decide +kernel

theorem test_urlSfx8 : writesText .urlSfx8 (withText http) (http ++ [0x2E, 0x6F, 0x72, 0x67]) = true := by
  decide +kernel

theorem test_urlSfx9 : writesText .urlSfx9 (withText http) (http ++ [0x2E, 0x65, 0x64, 0x75]) = true := by
  decide +kernel

theorem test_urlSfx10 : writesText .urlSfx10 (withText http) (http ++ [0x2E, 0x6E, 0x65, 0x74]) = true := by
  decide +kernel

theorem test_urlSfx11 : writesText .urlSfx11 (withText http) (http ++ [0x2E, 0x69, 0x6E, 0x66, 0x6F]) = true := by
  decide +kernel

theorem test_urlSfx12 : writesText .urlSfx12 (withText http) (http ++ [0x2E, 0x62, 0x69, 0x7A]) = true := by
  decide +kernel

theorem test_urlSfx13 : writesText .urlSfx13 (withText http) (http ++ [0x2E, 0x67, 0x6F, 0x76]) = true := by
  decide +kernel

/-- T-DEC-9, second symbol. -/
theorem test_urlLit : writesText (.urlLit 0x0E) (withText http) (http ++ [0x0E]) = true := by decide +kernel

/-! ### The commands -/

/-- P1: W1 decoded. -/
theorem test_cmdDecode : leaves (exec .cmdDecode (loaded w1)) { (withText (https ++ google)).blk with
    status := 1, pos := 12, header := beaconHeader 0x10
    result := { (withText (https ++ google)).blk.result with kind := 2, txpower := 0x03 } } = true := by
  decide +kernel

/-- W8, P5 step B. -/
theorem test_cmdDecode_overlong : raises (exec .cmdDecode (loaded [0x02, 0x01, 0x06, 0x03, 0x03, 0xAA, 0xFE, 0x14, 0x16,
    0xAA, 0xFE, 0x10, 0x03, 0x03, 0x67, 0x6F, 0x6F, 0x67])) .boundsViolation = true := by decide +kernel

/-- T-SCAN-10: the flags byte lies outside the declared structure. -/
theorem test_cmdScan : leaves (exec .cmdScan (loaded [0x01, 0x01, 0x06, 0x16, 0xAA, 0xFE, 0x10, 0xEB, 0x02]))
    { BlockRegs.cleared with
      status := 1, pos := 7, header := { beaconHeader 0x10 with svcUuid := 0 } } = true := by decide +kernel

/-- T-SCAN-25: the earlier defect is the one reported. -/
theorem test_cmdScan_first_error :
    raises (exec .cmdScan (loaded [0x03, 0x03, 0x0F, 0x18, 0x14, 0x16, 0xAA, 0xFE, 0x10])) .notABeaconAdvertisement =
      true := by decide +kernel

/-- T-TLM-1. -/
theorem test_cmdFrame : leaves (exec .cmdFrame (loaded tlm1 0x20)) { BlockRegs.cleared with
    status := 1
    result := { FrameResult.cleared with
      kind := 3, vbatt := 3000, tempInt := 0x19, tempFrac := 0x80, advCount := 42, time := 1000 } } = true := by
  decide +kernel

/-- T-FT-2: the type before the length. -/
theorem test_cmdFrame_type_first : raises (exec .cmdFrame (loaded [] 0x30)) .invalidFrameType = true := by
  decide +kernel

/-- T-DEC-4: the byte 00 does not end the body. -/
theorem test_cmdUrldec : leaves (exec .cmdUrldec (loaded [0x00, 0x00] 2))
    { (withText (http ++ [0x2E, 0x63, 0x6F, 0x6D, 0x2F, 0x2E, 0x63, 0x6F, 0x6D, 0x2F])).blk with status := 1 } =
      true := by decide +kernel

/-- T-DEC-12: the length before the scheme. -/
theorem test_cmdUrldec_length_first :
    raises (exec .cmdUrldec (loaded (List.replicate 17 0x61) 9)) .lengthMismatch = true := by decide +kernel

/-- T-ENC-8: `https://.com.org/.edu`. -/
theorem test_cmdUrlenc : leaves (exec .cmdUrlenc (loaded [] 0 (https ++
    [0x2E, 0x63, 0x6F, 0x6D, 0x2E, 0x6F, 0x72, 0x67, 0x2F, 0x2E, 0x65, 0x64, 0x75])))
    { BlockRegs.cleared with
      status := 1, outBuf := [(0, 0x03), (1, 0x07), (2, 0x01), (3, 0x09)], outLen := 4 } = true := by decide +kernel

/-- T-ENC-21: at the 17th position the character test comes before the length test. -/
theorem test_cmdUrlenc_character_first : raises (exec .cmdUrlenc (loaded [] 0 (http ++ [0x61, 0x62, 0x63, 0x64, 0x65,
    0x66, 0x67, 0x68, 0x69, 0x6A, 0x6B, 0x6C, 0x6D, 0x6E, 0x6F, 0x70, 0x05]))) .invalidArgument = true := by
  decide +kernel

/-- T-BUILD-1. -/
theorem test_cmdBuild : passes (exec .cmdBuild (loaded ([0x03, 0x03] ++ google) 0x10)) (fun t =>
    t.blk == { BlockRegs.cleared with status := 1, outBuf := t.blk.outBuf, outLen := 20 } &&
    t.blk.outBuf.readBytes 0 31 == [0x02, 0x01, 0x06, 0x03, 0x03, 0xAA, 0xFE, 0x09, 0x16, 0xAA, 0xFE, 0x10, 0x03, 0x03,
      0x67, 0x6F, 0x6F, 0x67, 0x6C, 0x65] ++ List.replicate 11 0x00) = true := by decide +kernel

/-- T-BUILD-8. -/
theorem test_cmdBuild_scheme : raises (exec .cmdBuild (loaded [0x00, 0x04] 0x10)) .invalidScheme = true := by
  decide +kernel

/-- R189. -/
theorem test_cmdReserved : raises (exec (.cmdReserved 7) (loaded w1)) .invalidArgument = true := by decide +kernel

/-! ### The step and reset -/

/-- R14, R48: a `CMD` write stores its value and runs its command on the state of that write. -/
theorem test_step_runs_a_command :
    passes (step ((loaded [0x67] 3).withFetchWord 8 0x04)) (fun t =>
      t.host.cmd == 4 && t.pending == [] &&
        t.blk == { (withText (https ++ [0x67])).blk with status := 1 }) = true := by decide +kernel

/-- R220, R221: a reset keeps nothing of a result. -/
theorem test_step_reset :
    passes (step { (withText http) with pending := [.reset [0x05] []] }) (fun t =>
      t.blk == BlockRegs.cleared && t.hostRead (.inBuf 0) == 5 && t.hostRead .inLen == 0) = true := by decide +kernel

/-! ### Witnesses: the hypotheses of each statement, met by concrete values, at the bounds of their ranges -/

/-- `s` with one host event pending. -/
def withEvent (s : State) (e : HostEvent) : State := { s with pending := [e] }

/-- The 19-byte UID payload, the longest a packet can carry. -/
def uid2 : List Byte := uid1 ++ [0x12, 0x34]

/-- Sixteen characters `a`, the longest body. -/
def body16 : List Byte := List.replicate 16 0x61

theorem witness_EncodeThenDecodeGivesTheInstruction :
    wellFormed .adFlags = true ∧ wellFormed (.adSkip 0x00) = true ∧ wellFormed (.frameInvalid 0xFF) = true ∧
    wellFormed (.urlPfxinvalid 4) = true ∧ wellFormed (.urlLit 14) = true ∧ wellFormed (.cmdReserved 7) = true := by
  decide

theorem witness_StepRunsTheCommandWritten :
    (withEvent (loaded w1) (.writeCmd 0x01)).pending = [.writeCmd 0x01] ∧
    decode .cmd [0x01] = .ok (.cmdDecode, []) ∧ decode .cmd [0xFF] = .ok (.cmdReserved 0xFF, []) ∧
    decodeTableWord 8 0 = some (.cmdReserved 0) ∧ decodeTableWord 8 255 = some (.cmdReserved 0xFF) := by decide

theorem witness_IdleAndReadsChangeNothing :
    (loaded w1).pending = [] ∧ (withEvent (loaded w1) (.read .status)).pending = [.read .status] := by decide

theorem witness_HostWriteChangesOnlyItsTarget :
    (∀ e ∈ [HostEvent.writeInBuf 30 0xFF, .writeInBuf 0 0x00, .writeInLen 31, .writeArg 0xFF, .writeTxtIn 126 0x01,
      .writeTxtInLen 127], (withEvent (loaded w1 0x10 google) e).Inv) ∧
    (withEvent (loaded w1) (.writeInBuf 30 0xFF)).pending = [.writeInBuf 30 0xFF] := by decide +kernel

theorem witness_ResetEventLeavesTheStatedValues :
    (withEvent (loaded w1) (.reset (List.replicate 31 0xFF) (List.replicate 127 0x01))).pending =
      [.reset (List.replicate 31 0xFF) (List.replicate 127 0x01)] ∧
    (List.replicate 31 (0xFF : Byte)).length = 31 ∧ (List.replicate 127 (0x01 : Byte)).length = 127 := by
  decide +kernel

theorem witness_EveryStepKeepsTheInvariant :
    ((loaded w1).withFetchWord 8 1).Inv ∧
    ∃ t, step ((loaded w1).withFetchWord 8 1) = .next t ∧ (t.done && t.blk.outLen == 0) = true :=
  ⟨by decide +kernel, next_of_passes (by decide +kernel)⟩

theorem witness_NoInstructionWritesHostState :
    (∃ t, exec .cmdBuild (loaded uid2) = .next t ∧ (t.blk.outLen == 31) = true) ∧
    ∃ t, exec .adFlags (loaded w1) = .next t ∧ (t.blk.pos == 3) = true :=
  ⟨next_of_passes (by decide +kernel), next_of_passes (by decide +kernel)⟩

theorem witness_commands :
    isCommand .cmdDecode = true ∧ isCommand .cmdScan = true ∧ isCommand .cmdFrame = true ∧
    isCommand .cmdUrldec = true ∧ isCommand .cmdUrlenc = true ∧ isCommand .cmdBuild = true ∧
    isCommand (.cmdReserved 0) = true ∧ isCommand (.cmdReserved 0xFF) = true := by decide

/-- `w1` with other bytes above `IN_LEN`, another `ARG`, and a result left behind. -/
def w1Disturbed : State :=
  { loaded w1 with
    host := { (loaded w1).host with inBuf := Memory.writeBytes [] 0 (w1 ++ [0xFF, 0xEE]), arg := 0x77 }
    blk := (withText google).blk }

theorem witness_CommandsDependOnlyOnTheirArguments :
    (isCommand .cmdScan = true ∧ sameArguments .cmdScan (loaded w1) w1Disturbed) ∧
    sameArguments .cmdFrame (loaded w1 0x77) w1Disturbed ∧
    sameArguments .cmdUrlenc (loaded w1 0 google) { w1Disturbed with host := (loaded [] 1 google).host } ∧
    (loaded w1).blk ≠ w1Disturbed.blk := by
  refine ⟨⟨by decide, ?_⟩, ⟨?_, ?_⟩, ?_, by decide +kernel⟩
  · show (loaded w1).inBytes = w1Disturbed.inBytes
    decide +kernel
  · show (loaded w1 0x77).inBytes = w1Disturbed.inBytes
    decide +kernel
  · rfl
  · show (loaded w1 0 google).text = State.text { w1Disturbed with host := (loaded [] 1 google).host }
    decide +kernel

/-- Both directions of R207: a cell that is marked and one that is blank. -/
theorem witness_ErrorsOfEachCommand :
    isCommand .cmdScan = true ∧ mayRaise .cmdScan .boundsViolation = true ∧
    mayRaise .cmdScan .lengthMismatch = false ∧
    raises (exec .cmdScan (loaded [0x01, 0x01])) .boundsViolation = true := by decide +kernel

theorem witness_CommandsWriteOnlyTheirResultGroups :
    (∃ t, exec .cmdUrldec (loaded google 3) = .next t ∧ (t.blk.result.urlLen == 14) = true) ∧
    (∃ t, exec .cmdBuild (loaded uid1) = .next t ∧ (t.blk.outLen == 29) = true) ∧
    ∃ t, exec .cmdDecode (loaded w1) = .next t ∧ (t.blk.pos == 12) = true :=
  ⟨next_of_passes (by decide +kernel), next_of_passes (by decide +kernel), next_of_passes (by decide +kernel)⟩

theorem witness_ScanCommandComputesScan :
    (loaded []).len = 0 ∧ (loaded w1).len ≠ 0 ∧ scanBytes (loaded w1).inBytes = .ok (beaconHeader 0x10, 12) ∧
    (loaded [0x02, 0x01, 0x06]).len ≠ 0 ∧
    scanBytes (loaded [0x02, 0x01, 0x06]).inBytes = .error .notABeaconAdvertisement := by decide +kernel

theorem witness_DecodeCommandComputesDecode :
    decodeBytes (loaded []).inBytes = .error .invalidArgument ∧
    decodeBytes (loaded w1).inBytes = .ok (beaconHeader 0x10, 12,
      { FrameResult.ofText (https ++ google) with kind := 2, txpower := 3 }) := by decide +kernel

theorem witness_FrameCommandComputesFrameDecode :
    frameDecode (loaded [] 0x30).host.arg (loaded [] 0x30).inBytes = .error .invalidFrameType ∧
    frameDecode (loaded [0xEB, 0x03] 0x10).host.arg (loaded [0xEB, 0x03] 0x10).inBytes =
      .ok { FrameResult.ofText https with kind := 2, txpower := 0xEB } := by decide +kernel

theorem witness_UrlDecodeCommandComputesUrlDecode :
    16 < (loaded (List.replicate 17 0x61) 9).len ∧
    ((loaded body16 4).len ≤ 16 ∧ 3 < (loaded body16 4).host.arg.toNat) ∧
    (loaded body16 3).len ≤ 16 ∧ (loaded body16 3).host.arg.toNat ≤ 3 := by decide +kernel

theorem witness_UrlEncodeCommandWritesTheEncodedUrl :
    urlEncode (loaded []).text = .error .invalidArgument ∧
    urlEncode (loaded [] 0 (https ++ google)).text = .ok (3, google) := by decide +kernel

theorem witness_BuildCommandComputesBuildPacket :
    buildBytes 1 0 (loaded []).inBytes = .error .invalidArgument ∧
    buildBytes 1 (loaded uid2).host.arg (loaded uid2).inBytes = .ok (packetBytes 1 0 uid2) := by decide +kernel

theorem witness_ReservedCodeRaisesInvalidArgument :
    (withEvent (loaded w1) (.writeCmd 7)).pending = [.writeCmd 7] ∧ 7 ≤ (7 : Byte).toNat ∧
    7 ≤ (0xFF : Byte).toNat ∧ (withEvent (loaded w1) (.writeCmd 0)).pending = [.writeCmd 0] := by decide

theorem witness_CursorAndHeaderAfterACommand :
    (∃ t, exec .cmdScan (loaded [0x04, 0x16, 0xAA, 0xFE, 0x10]) = .next t ∧ (!t.err && t.cursor == 5) = true) ∧
    (∃ t, exec .cmdDecode (loaded [0x04, 0x16, 0xAA, 0xFE, 0x10]) = .next t ∧ (t.err && t.cursor == 0) = true) ∧
    ∃ t, exec .cmdUrldec (loaded google 3) = .next t ∧ (!t.err && t.cursor == 0) = true :=
  ⟨next_of_passes (by decide +kernel), next_of_passes (by decide +kernel), next_of_passes (by decide +kernel)⟩

/-- Steps 1 to 4 of R101 pass, as a Bool. -/
def fits (s : State) : Bool :=
  decide (s.cursor < s.len ∧ s.inByte s.cursor ≠ 0 ∧ s.cursor + 1 + (s.inByte s.cursor).toNat ≤ s.len)

theorem structureFits_of_fits {s : State} (h : fits s = true) : s.structureFits := by
  have h' := of_decide_eq_true h
  exact h'

/-- Each with the last byte it needs at the last index of the buffer. -/
theorem witness_AdRowsHaveTheirEffect :
    ((loaded [0x02, 0x01, 0x06]).structureFits ∧ (loaded [0x02, 0x01, 0x06]).cursor + 2 <
      (loaded [0x02, 0x01, 0x06]).len) ∧
    ((loaded [0x03, 0x03, 0xAA, 0xFE]).structureFits ∧ (loaded [0x03, 0x03, 0xAA, 0xFE]).cursor + 3 <
      (loaded [0x03, 0x03, 0xAA, 0xFE]).len ∧ (loaded [0x03, 0x03, 0xAA, 0xFE]).adUuid = 0xFEAA) ∧
    (loaded [0x04, 0x16, 0xAA, 0xFE, 0x10]).structureFits ∧ (loaded [0x04, 0x16, 0xAA, 0xFE, 0x10]).cursor + 4 <
      (loaded [0x04, 0x16, 0xAA, 0xFE, 0x10]).len ∧ (loaded [0x04, 0x16, 0xAA, 0xFE, 0x10]).adUuid = 0xFEAA ∧
    isFrameType ((loaded [0x04, 0x16, 0xAA, 0xFE, 0x10]).inByte 4) = true :=
  ⟨⟨structureFits_of_fits (by decide +kernel), by decide +kernel⟩,
    ⟨structureFits_of_fits (by decide +kernel), by decide +kernel⟩,
    structureFits_of_fits (by decide +kernel), by decide +kernel⟩

theorem witness_AdRowsRaiseInOrder_before_the_row :
    formatOf (.adSkip 0xFF) = .ad ∧ (loadedAt 3 [0x02, 0x01, 0x06]).len ≤ (loadedAt 3 [0x02, 0x01, 0x06]).cursor ∧
    ((loaded [0x00, 0x16]).cursor < (loaded [0x00, 0x16]).len ∧ (loaded [0x00, 0x16]).inByte 0 = 0) ∧
    (loaded [0x02, 0x01]).cursor < (loaded [0x02, 0x01]).len ∧ (loaded [0x02, 0x01]).inByte 0 ≠ 0 ∧
    (loaded [0x02, 0x01]).len < (loaded [0x02, 0x01]).nextStructure := by decide +kernel

theorem witness_AdRowsRaiseInOrder_in_the_row :
    (fits (loaded [0x01, 0x01]) && decide ((loaded [0x01, 0x01]).len ≤ (loaded [0x01, 0x01]).cursor + 2)) = true ∧
    (fits (loaded [0x02, 0x03, 0xAA]) && decide ((loaded [0x02, 0x03, 0xAA]).len ≤
      (loaded [0x02, 0x03, 0xAA]).cursor + 3)) = true ∧
    (fits (loaded [0x03, 0x03, 0x0F, 0x18]) && decide ((loaded [0x03, 0x03, 0x0F, 0x18]).adUuid ≠ 0xFEAA)) = true ∧
    (fits (loaded [0x03, 0x16, 0xAA, 0xFE]) && decide ((loaded [0x03, 0x16, 0xAA, 0xFE]).len ≤
      (loaded [0x03, 0x16, 0xAA, 0xFE]).cursor + 4)) = true ∧
    (fits (loaded [0x04, 0x16, 0xAA, 0xFD, 0x10]) &&
      decide ((loaded [0x04, 0x16, 0xAA, 0xFD, 0x10]).adUuid ≠ 0xFEAA)) = true ∧
    (fits (loaded [0x04, 0x16, 0xAA, 0xFE, 0x30]) &&
      decide ((loaded [0x04, 0x16, 0xAA, 0xFE, 0x30]).adUuid = 0xFEAA) &&
      !isFrameType ((loaded [0x04, 0x16, 0xAA, 0xFE, 0x30]).inByte 4)) = true := by decide +kernel

theorem witness_UnitsRunTheDecodedRows :
    ((loaded w1).structureFits ∧ ∃ t, runAdRow (decodeByte .ad (loaded w1).adType) (loaded w1) = .ok t) ∧
    ((loaded [0x01, 0x01]).structureFits ∧
      runAdRow (decodeByte .ad (loaded [0x01, 0x01]).adType) (loaded [0x01, 0x01]) =
        .error (.raise .boundsViolation)) ∧
    ∃ t, exec (decodeByte .sym 0x0D) (withText http) = .next t ∧ (t.urlCursor == 11) = true :=
  ⟨⟨structureFits_of_fits (by decide +kernel), _, rfl⟩, ⟨structureFits_of_fits (by decide +kernel), rfl⟩,
    next_of_passes (by decide +kernel)⟩

theorem witness_FrameRowsFillTheirVariant :
    (loaded uid1).payload.length = 17 ∧ (loaded uid2).payload.length = 19 ∧
    (2 ≤ (loaded [0xEB, 0x03]).payload.length ∧ (byteAt (loaded [0xEB, 0x03]).payload 1).toNat ≤ 3) ∧
    ((loaded ([0x00, 0x00] ++ body16)).payload.length ≤ 18 ∧
      (byteAt (loaded ([0x00, 0x00] ++ body16)).payload 1).toNat ≤ 3) ∧
    (loaded tlm1).payload.length = 13 ∧ (loaded (tlm1 ++ [0x99])).payload.length = 14 := by decide +kernel

theorem witness_FrameRowsRaiseInOrder :
    (loaded (uid1.take 16)).payload.length = 16 ∧ (loaded (uid1 ++ [0x00])).payload.length = 18 ∧
    (loaded [0xEB]).payload.length < 2 ∧ 18 < (loaded (List.replicate 19 0x00)).payload.length ∧
    ((loaded [0x00, 0x04]).payload.length = 2 ∧ 3 < (byteAt (loaded [0x00, 0x04]).payload 1).toNat) ∧
    ((loaded ([0x00, 0xFF] ++ body16)).payload.length = 18 ∧
      3 < (byteAt (loaded ([0x00, 0xFF] ++ body16)).payload 1).toNat) ∧
    (loaded (tlm1.take 12)).payload.length < 13 ∧ 14 < (loaded (tlm1 ++ [0x99, 0x99])).payload.length := by
  decide +kernel

theorem witness_InvalidFrameTypeRaises :
    (0x30 : Byte) ≠ 0x00 ∧ (0x30 : Byte) ≠ 0x10 ∧ (0x30 : Byte) ≠ 0x20 ∧ (0x01 : Byte) ≠ 0x00 := by decide

theorem witness_InvalidSchemeRaises : 3 < (4 : Byte).toNat ∧ 3 < (0xFF : Byte).toNat := by decide

theorem witness_TemperatureIsExact :
    temperature 0xFF 0x80 = temperature 0xFF 0x80 ∧ (loaded tlm1).payload.length = 13 ∧
    (loaded (tlm1 ++ [0x99])).payload.length = 14 := ⟨rfl, by decide +kernel, by decide +kernel⟩

theorem witness_LayoutsDecodeToTheirFields :
    (List.replicate 10 (0xFF : Byte)).length = 10 ∧ (List.replicate 6 (0xFF : Byte)).length = 6 ∧
    (3 : Byte).toNat ≤ 3 ∧ body16.length ≤ 16 := by decide

theorem witness_SchemeRowsBeginTheText :
    (Instr.urlPfx3, 3) ∈ [(Instr.urlPfx0, 0), (.urlPfx1, 1), (.urlPfx2, 2), (.urlPfx3, 3)] := by decide

/-- The last place where the six characters of suffix 4 fit, and where one character does. -/
theorem witness_SymbolRowsAppendTheirText :
    ((withText (List.replicate 102 0x61)).blk.result.url.wf = true ∧
      (withText (List.replicate 102 0x61)).urlCursor + (suffixRom 4).length ≤ 108) ∧
    (withText (List.replicate 107 0x61)).blk.result.url.wf = true ∧
    (withText (List.replicate 107 0x61)).urlCursor + 1 ≤ 108 := by decide +kernel

theorem witness_SymbolRowsStopAtTheEndOfTheBank :
    ((4 : Byte).toNat < 14 ∧ 108 < (withText (List.replicate 103 0x61)).urlCursor +
      (suffixRom (4 : Byte).toNat).length) ∧
    108 ≤ (withText (List.replicate 108 0x61)).urlCursor := by decide +kernel

theorem witness_DecodedTextHasNoCharacterBelow14 :
    (0x67 : Byte) ∈ urlDecode 3 google ∧ (0x2F : Byte) ∈ urlDecode 0 [0x00] ∧ (0x0E : Byte) ∈ urlDecode 2 [0x0E] := by
  decide

theorem witness_DecodedTextLength : 3 ≤ 3 ∧ body16.length ≤ 16 ∧ (urlDecode 3 body16).length = 24 := by decide

/-- The longest text the encoder accepts, 108 characters. -/
theorem witness_EncodedUrlFitsAUrlFrame :
    urlEncode (urlDecode 1 (List.replicate 16 0x04)) = .ok (1, List.replicate 16 0x04) ∧
    (urlDecode 1 (List.replicate 16 0x04)).length = 108 := by decide +kernel

/-- The texts after the prefix: `.com` and a byte 5 (prefix 2); 16 literals and a byte 5 (T-ENC-21); `x` and 16 times
`.info/` (T-ENC-15, prefix 3); 17 literals (prefix 0). -/
theorem witness_EncoderRaisesInOrder :
    (([0x66, 0x74, 0x70] : List Byte) ≠ [] ∧ ∀ k < 4, ¬ prefixRom k <+: ([0x66, 0x74, 0x70] : List Byte)) ∧
    (beginsWithPrefix 2 (prefixRom 2 ++ (suffixRom 7 ++ [0x05])) ∧
      greedyParse (suffixRom 7 ++ [0x05]) ([.suffix 7] ++ .literal 0x05 :: []) = true ∧
      (UrlSymbol.literal 0x05).encodable = false ∧ [UrlSymbol.suffix 7].all UrlSymbol.encodable = true) ∧
    (beginsWithPrefix 2 (prefixRom 2 ++ (body16 ++ [0x05])) ∧
      greedyParse (body16 ++ [0x05]) (List.replicate 16 (.literal 0x61) ++ .literal 0x05 :: []) = true ∧
      (List.replicate 16 (UrlSymbol.literal 0x61)).all UrlSymbol.encodable = true) ∧
    (beginsWithPrefix 3 (prefixRom 3 ++ 0x78 :: (List.replicate 16 (suffixRom 4)).flatten) ∧
      greedyParse (0x78 :: (List.replicate 16 (suffixRom 4)).flatten)
        ((.literal 0x78 :: List.replicate 15 (.suffix 4)) ++ .suffix 4 :: []) = true ∧
      (UrlSymbol.literal 0x78 :: List.replicate 15 (.suffix 4)).all UrlSymbol.encodable = true ∧
      (UrlSymbol.literal 0x78 :: List.replicate 15 (.suffix 4)).length = 16) ∧
    beginsWithPrefix 0 (prefixRom 0 ++ List.replicate 17 0x61) ∧
    greedyParse (List.replicate 17 0x61) (List.replicate 16 (.literal 0x61) ++ .literal 0x61 :: []) = true ∧
    (UrlSymbol.literal 0x61).encodable = true := by decide +kernel

/-- T-ENC-8: an accepted text, its parse and its body; and T-ENC-14, whose body has the 16 bytes of the limit. -/
theorem witness_EncoderAcceptsTheGreedyParse :
    (urlEncode (https ++ (suffixRom 7 ++ suffixRom 1 ++ suffixRom 9)) = .ok (3, [0x07, 0x01, 0x09]) ∧
      greedyParse (suffixRom 7 ++ suffixRom 1 ++ suffixRom 9) [.suffix 7, .suffix 1, .suffix 9] = true) ∧
    beginsWithPrefix 1 (prefixRom 1 ++ (List.replicate 16 (suffixRom 4)).flatten) ∧
    greedyParse (List.replicate 16 (suffixRom 4)).flatten (List.replicate 16 (.suffix 4)) = true ∧
    (List.replicate 16 (UrlSymbol.suffix 4)).all UrlSymbol.encodable = true := by decide +kernel

theorem witness_UrlTextRoundTrip : urlEncode (https ++ google) = .ok (3, google) := by decide +kernel

/-- T-CANON-6 and T-CANON-8: a pair that is not canonical, and one whose canonical body is too long. -/
theorem witness_UrlCanonicalRoundTrip :
    urlEncode (urlDecode 2 [0x77, 0x77, 0x77, 0x04]) = .ok (0, [0x69, 0x6E, 0x66, 0x6F, 0x2F]) ∧
    urlEncode (urlDecode 2 ([0x77, 0x77, 0x77, 0x04] ++ List.replicate 12 0x61)) = .error .lengthMismatch := by
  decide +kernel

theorem witness_BuildThenDecode :
    buildBytes 1 0x00 uid2 = .ok (packetBytes 1 0x00 uid2) ∧ buildBytes 4 0x00 uid2 = .ok (packetBytes 4 0x00 uid2) ∧
    buildBytes 1 0x10 [0xEB, 0x03] = .ok (packetBytes 1 0x10 [0xEB, 0x03]) := by decide +kernel

theorem witness_BuiltPacketDecodesOnTheBlock :
    ∃ t, exec .cmdBuild (loaded uid2) = .next t ∧ (!t.err && t.blk.outLen == 31) = true :=
  next_of_passes (by decide +kernel)

/-- P4 step A. -/
theorem witness_TextSurvivesEncodeBuildDecode :
    ∃ t, exec .cmdUrlenc (loaded [] 0 (urlDecode 0 [0x65, 0x78, 0x61, 0x6D, 0x70, 0x6C, 0x65, 0x00])) = .next t ∧
      (!t.err && t.blk.outLen == 9) = true :=
  next_of_passes (by decide +kernel)

end Sys2Proof.Tests
end

