-- ==== Sys2Proof/Proofs/HostSide.lean ====
section
/-! The host's side: what a step does by the oldest pending event, what each host write changes, and the statements
about reset, reads and writes. -/

namespace Sys2Proof.Machine

/-! ### The step, by the oldest event -/

theorem step_idle {s : State} (h : s.pending = []) : step s = .next s := by
  have hf : fetch s = .idle := by simp [fetch, h]
  simp [step, hf]

theorem step_writeCmd {s : State} {c : Byte} {rest : List HostEvent} (h : s.pending = .writeCmd c :: rest) :
    step s = exec (decodeByte .cmd c) ((State.mk s.host s.blk rest).setCmd c) := by
  have hf : fetch s = .command (decodeByte .cmd c) ((State.mk s.host s.blk rest).setCmd c) := by
    simp [fetch, h, HostEvent.apply]
  simp [step, hf]

theorem step_access {s : State} {e : HostEvent} {rest : List HostEvent} (h : s.pending = e :: rest)
    (he : ∀ c, e ≠ .writeCmd c) : step s = .next (e.apply (State.mk s.host s.blk rest)) := by
  have hf : fetch s = .access (e.apply (State.mk s.host s.blk rest)) := by
    obtain ⟨hnil, -⟩ | ⟨c, r, hcmd, -⟩ | ⟨e', r, hcons, -, hf⟩ := fetch_cases s
    · simp [h] at hnil
    · simp only [h, List.cons.injEq] at hcmd
      exact absurd hcmd.1 (he c)
    · simp only [h, List.cons.injEq] at hcons
      obtain ⟨rfl, rfl⟩ := hcons
      exact hf
  simp [step, hf]

/-! ### Decoding a word written to `CMD` -/

theorem decode_cmd_ok_iff {c : Byte} {i : Instr} : decode .cmd [c] = .ok (i, []) ↔ decodeByte .cmd c = i := by
  simp [decode]

theorem decodeByte_of_decodeTableWord {w : Nat} {i : Instr} (h : decodeTableWord 8 w = some i) :
    decodeByte .cmd (BitVec.ofNat 8 w) = i := by
  unfold decodeTableWord at h
  split at h
  · simpa [decode] using h
  · cases h

/-! ### What the host reads -/

theorem State.hostRead_of_blk_cleared {s : State} (h : s.blk = BlockRegs.cleared) {r : HostReg}
    (hr : r.blockWritten = true) : s.hostRead r = 0 := by
  cases r <;> simp_all [HostReg.blockWritten, State.hostRead, BlockRegs.cleared, Header.cleared, FrameResult.cleared]

theorem hostRead_apply_writeInBuf {s : State} (hwf : s.host.inBuf.wf = true) (i : Fin 31) (b : Byte) (r : HostReg) :
    ((HostEvent.writeInBuf i b).apply s).hostRead r = if r = .inBuf i then b.toNat else s.hostRead r := by
  cases r with
  | inBuf j =>
    simp only [HostEvent.apply, State.hostRead, State.setHost_host, Memory.read_write hwf, HostReg.inBuf.injEq,
      ← Fin.ext_iff]
    split <;> rfl
  | _ => simp [HostEvent.apply, State.hostRead]

theorem hostRead_apply_writeTxtIn {s : State} (hwf : s.host.txtIn.wf = true) (i : Fin 127) (b : Byte) (r : HostReg) :
    ((HostEvent.writeTxtIn i b).apply s).hostRead r = if r = .txtIn i then b.toNat else s.hostRead r := by
  cases r with
  | txtIn j =>
    simp only [HostEvent.apply, State.hostRead, State.setHost_host, Memory.read_write hwf, HostReg.txtIn.injEq,
      ← Fin.ext_iff]
    split <;> rfl
  | _ => simp [HostEvent.apply, State.hostRead]

theorem hostRead_apply_writeInLen (s : State) (n : BitVec 5) (r : HostReg) :
    ((HostEvent.writeInLen n).apply s).hostRead r = if r = .inLen then n.toNat else s.hostRead r := by
  cases r <;> simp [HostEvent.apply, State.hostRead]

theorem hostRead_apply_writeArg (s : State) (b : Byte) (r : HostReg) :
    ((HostEvent.writeArg b).apply s).hostRead r = if r = .arg then b.toNat else s.hostRead r := by
  cases r <;> simp [HostEvent.apply, State.hostRead]

theorem hostRead_apply_writeTxtInLen (s : State) (n : BitVec 7) (r : HostReg) :
    ((HostEvent.writeTxtInLen n).apply s).hostRead r = if r = .txtInLen then n.toNat else s.hostRead r := by
  cases r <;> simp [HostEvent.apply, State.hostRead]

/-- Below its end, a bank that a reset left with a byte string reads as that string. -/
theorem Memory.read_writeBytes_nil_take {bytes : List Byte} {size i : Nat} (hlen : bytes.length = size)
    (hi : i < size) : (Memory.writeBytes [] 0 (bytes.take size)).read i = byteAt bytes i := by
  rw [List.take_of_length_le hlen.le, Memory.read_writeBytes rfl]
  simp [hlen, hi]

/-! ### The statements -/

/-- Settles O4. -/
theorem stepRunsTheCommandWritten : Obligations.StepRunsTheCommandWritten := by
  refine ⟨fun s c rest i hp hd => ?_, fun s w i hd => ?_⟩
  · rw [step_writeCmd hp, decode_cmd_ok_iff.mp hd]
    rfl
  · have hp : (s.withFetchWord 8 w).pending = .writeCmd (BitVec.ofNat 8 w) :: s.pending := rfl
    rw [step_writeCmd hp, decodeByte_of_decodeTableWord hd]
    rfl

/-- Settles O5. -/
theorem idleAndReadsChangeNothing : Obligations.IdleAndReadsChangeNothing :=
  ⟨fun _ => step_idle, fun _ _ _ hp => step_access hp (by simp)⟩

/-- Settles O6: each write is one event of `step_access`, and its read law is the one of the bank or register. -/
theorem hostWriteChangesOnlyItsTarget : Obligations.HostWriteChangesOnlyItsTarget := by
  intro s rest hinv e target v hwrite hp
  obtain ⟨⟨hin, -⟩, ⟨htxt, -⟩, -⟩ := hinv
  obtain ⟨i, b, rfl, rfl, rfl⟩ | ⟨n, rfl, rfl, rfl⟩ | ⟨b, rfl, rfl, rfl⟩ | ⟨i, b, rfl, rfl, rfl⟩ |
    ⟨n, rfl, rfl, rfl⟩ := hwrite
  · exact ⟨_, step_access hp (by simp), rfl, rfl, hostRead_apply_writeInBuf hin i b⟩
  · exact ⟨_, step_access hp (by simp), rfl, rfl, hostRead_apply_writeInLen _ n⟩
  · exact ⟨_, step_access hp (by simp), rfl, rfl, hostRead_apply_writeArg _ b⟩
  · exact ⟨_, step_access hp (by simp), rfl, rfl, hostRead_apply_writeTxtIn htxt i b⟩
  · exact ⟨_, step_access hp (by simp), rfl, rfl, hostRead_apply_writeTxtInLen _ n⟩

/-- Settles O7. -/
theorem resetEventLeavesTheStatedValues : Obligations.ResetEventLeavesTheStatedValues := by
  intro s a b rest hp ha hb
  refine ⟨_, step_access hp (by simp), rfl, fun r hr => State.hostRead_of_blk_cleared rfl hr, rfl, rfl, rfl, rfl,
    fun i => ?_, fun i => ?_⟩
  · exact congrArg BitVec.toNat (Memory.read_writeBytes_nil_take ha i.isLt)
  · exact congrArg BitVec.toNat (Memory.read_writeBytes_nil_take hb i.isLt)

/-- Settles O8. -/
theorem blockWrittenStateIsZeroAfterReset : Obligations.BlockWrittenStateIsZeroAfterReset :=
  ⟨fun _ => State.hostRead_of_blk_cleared rfl, fun s _ => State.hostRead_of_blk_cleared s.clear_blk,
    rfl, rfl, rfl, rfl⟩

/-- `STATUS` is two bits, `DONE` and `ERR`. -/
theorem toNat_eq_done_add_err (v : BitVec 2) :
    v.toNat = (if v.getLsbD 0 then 1 else 0) + (if v.getLsbD 1 then 2 else 0) := by
  revert v; decide

/-- Settles O50. -/
theorem statusAndErrorCodes : Obligations.StatusAndErrorCodes :=
  ⟨fun s => toNat_eq_done_add_err s.blk.status, rfl, rfl, rfl, rfl, rfl, rfl⟩

end Sys2Proof.Machine
end

