-- ==== Sys2Proof/Proofs/UnitFunctions.lean ====
section
/-! Each unit, run on the state, computes the spec's function over byte strings: the scanner `scanBytes`, the URL
decoder `urlDecode`, the frame decoder `frameDecode`, the packet builder `buildBytes`. -/

namespace Sys2Proof.Machine

/-! ### Answers -/

/-- A function's answer as a unit leaves it: the result put into the state, or the error raised. -/
def answerWith {α : Type} (put : α → State) : Except ErrorKind α → Except Stop State
  | .ok a => .ok (put a)
  | .error e => raise e

@[simp] theorem answerWith_ok {α : Type} (put : α → State) (a : α) : answerWith put (.ok a) = .ok (put a) := rfl

@[simp] theorem answerWith_error {α : Type} (put : α → State) (e : ErrorKind) :
    answerWith put (.error e) = raise e := rfl

theorem answerWith_map {α β : Type} (put : β → State) (f : α → β) (x : Except ErrorKind α) :
    answerWith put (x.map f) = answerWith (fun a => put (f a)) x := by
  cases x <;> rfl

/-! ### Input slices -/

theorem State.len_le (s : State) : s.len ≤ 31 := by
  have := s.host.inLen.isLt
  simp only [State.len]
  omega

@[simp] theorem State.inBytes_length (s : State) : s.inBytes.length = s.len := by simp [State.inBytes]

theorem State.byteAt_inBytes (s : State) {k : Nat} (h : k < s.len) : byteAt s.inBytes k = s.inByte k := by
  simp [State.inBytes, State.inByte, Memory.byteAt_readBytes _ _ _ _ h]

theorem State.payload_eq_drop (s : State) : s.payload = s.inBytes.drop s.cursor := by
  simp [State.payload, State.inBytes, Memory.readBytes_drop]

/-! ### The scanner (R100 to R111) -/

/-- `s` with the header and the cursor of a scan that has come this far. -/
def State.scanned (s : State) (r : Header × Nat) : State := (s.setHeader r.1).setPos r.2

@[simp] theorem State.scanned_len (s : State) (r : Header × Nat) : (s.scanned r).len = s.len := rfl
@[simp] theorem State.scanned_inBytes (s : State) (r : Header × Nat) : (s.scanned r).inBytes = s.inBytes := rfl
@[simp] theorem State.scanned_header (s : State) (r : Header × Nat) : (s.scanned r).blk.header = r.1 := rfl
@[simp] theorem State.scanned_scanned (s : State) (q : Header × Nat) : (s.scanned q).scanned = s.scanned := rfl

theorem State.scanned_cursor (s : State) {r : Header × Nat} (h : r.2 ≤ 31) : (s.scanned r).cursor = r.2 := by
  simp [State.scanned, State.cursor]
  omega

theorem isFrameType_iff {ft : Byte} : isFrameType ft = true ↔ ¬ (ft ≠ 0x00 ∧ ft ≠ 0x10 ∧ ft ≠ 0x20) := by
  simp only [isFrameType, Bool.or_eq_true, beq_iff_eq]
  tauto

theorem adStructure_of_fits {s : State} (h : s.structureFits) : adStructure s = .ok (s.inByte s.cursor).toNat :=
  adStructure_ok_iff.mpr ⟨h, rfl⟩

theorem byte_toNat_ne_zero {b : Byte} (h : b ≠ 0) : b.toNat ≠ 0 :=
  fun h0 => h (BitVec.eq_of_toNat_eq (by simpa using h0))

/-- The offset after a structure that fits lies past its length and type bytes and within the input. -/
theorem State.structureFits.nextStructure_bounds {s : State} (h : s.structureFits) :
    s.cursor + 2 ≤ s.nextStructure ∧ s.nextStructure ≤ s.len := by
  obtain ⟨-, hne, hend⟩ := h
  have hpos := byte_toNat_ne_zero hne
  simp only [State.nextStructure]
  omega

theorem require_bind_eq {α : Type} (c : Bool) (e : ErrorKind) (f : Unit → Except Stop α) :
    (require c e >>= f) = if c = true then f () else raise e := by
  cases c <;> rfl

theorem adStructure_bind_of_fits {α : Type} {s : State} (h : s.structureFits) (f : Nat → Except Stop α) :
    (adStructure s >>= f) = f (s.inByte s.cursor).toNat := by
  rw [adStructure_of_fits h]
  rfl

/-! What each AD row does with a structure that fits (R103 to R106). -/

theorem adFlags_of_fits {s : State} (h : s.structureFits) :
    adFlags s = if s.cursor + 2 < s.len then
        .ok (s.scanned ({ s.blk.header with flags := s.inByte (s.cursor + 2), flagsValid := 1 }, s.nextStructure))
      else raise .boundsViolation := by
  simp only [adFlags, adStructure_bind_of_fits h, require_bind_eq, decide_eq_true_eq]
  rfl

theorem adUuid16_of_fits {s : State} (h : s.structureFits) :
    adUuid16 s = if s.cursor + 3 < s.len then
        if s.adUuid = 0xFEAA then .ok (s.scanned ({ s.blk.header with svcUuid := s.adUuid }, s.nextStructure))
        else raise .notABeaconAdvertisement
      else raise .boundsViolation := by
  simp only [adUuid16, adStructure_bind_of_fits h, require_bind_eq, decide_eq_true_eq, beq_iff_eq]
  rfl

theorem adSvcdata16_of_fits {s : State} (h : s.structureFits) :
    adSvcdata16 s = if s.cursor + 4 < s.len then
        if s.adUuid = 0xFEAA then
          if isFrameType (s.inByte (s.cursor + 4)) = true then
            .ok (s.scanned ({ s.blk.header with svcDataType := s.adUuid, frameType := s.inByte (s.cursor + 4) },
              s.cursor + 5))
          else raise .invalidFrameType
        else raise .notABeaconAdvertisement
      else raise .boundsViolation := by
  simp only [adSvcdata16, adStructure_bind_of_fits h, require_bind_eq, decide_eq_true_eq, beq_iff_eq]
  rfl

theorem adSkip_of_fits {s : State} (h : s.structureFits) (t : Byte) :
    adSkip t s = .ok (s.scanned (s.blk.header, s.nextStructure)) := by
  simp only [adSkip, adStructure_bind_of_fits h]
  rfl

theorem scanLoop_succ_of_fits {s : State} (h : s.structureFits) (n : Nat) :
    scanLoop (n + 1) s = runAdRow (decodeAd s.adType) s >>= fun t =>
      if decodeAd s.adType = .adSvcdata16 then .ok t else scanLoop n t := by
  simp only [scanLoop, fetchAd, adStructure_of_fits h]
  rfl

/-- A structure that does not fit ends the scan with the error of R101, in the loop and in the function alike. -/
theorem scanLoop_succ_of_not_fits {s : State} (h : ¬ s.structureFits) (n k : Nat) (hd : Header) :
    scanLoop (n + 1) s = answerWith s.scanned (scanBytesFrom s.inBytes (k + 1) s.cursor hd) := by
  cases hx : adStructure s with
  | ok l => exact absurd (adStructure_ok_iff.mp hx).1 h
  | error q =>
    have hloop : scanLoop (n + 1) s = .error q := by
      simp only [scanLoop, fetchAd, hx]
      rfl
    rw [hloop]
    obtain ⟨rfl, hend | h0⟩ | ⟨rfl, hlt, hne, hend⟩ := adStructure_error hx
    · simp [scanBytesFrom, hend, raise]
    · by_cases hlt : s.cursor < s.len
      · simp [scanBytesFrom, s.byteAt_inBytes hlt, h0, raise]
      · simp [scanBytesFrom, Nat.le_of_not_lt hlt, raise]
    · simp [scanBytesFrom, s.byteAt_inBytes hlt, hlt.not_ge, byte_toNat_ne_zero hne, hend]
      rfl

/-- One iteration of `scan(B, n)` on the block's own bytes, past the checks of R101. -/
theorem scanBytesFrom_succ_of_fits {s : State} (h : s.structureFits) (k : Nat) (hd : Header) :
    scanBytesFrom s.inBytes (k + 1) s.cursor hd =
      if s.adType = 0x01 then
        if s.cursor + 2 < s.len then
          scanBytesFrom s.inBytes k s.nextStructure { hd with flags := s.inByte (s.cursor + 2), flagsValid := 1 }
        else .error .boundsViolation
      else if s.adType = 0x03 then
        if s.cursor + 3 < s.len then
          if s.adUuid = 0xFEAA then scanBytesFrom s.inBytes k s.nextStructure { hd with svcUuid := s.adUuid }
          else .error .notABeaconAdvertisement
        else .error .boundsViolation
      else if s.adType = 0x16 then
        if s.cursor + 4 < s.len then
          if s.adUuid = 0xFEAA then
            if isFrameType (s.inByte (s.cursor + 4)) = true then
              .ok ({ hd with svcDataType := s.adUuid, frameType := s.inByte (s.cursor + 4) }, s.cursor + 5)
            else .error .invalidFrameType
          else .error .notABeaconAdvertisement
        else .error .boundsViolation
      else scanBytesFrom s.inBytes k s.nextStructure hd := by
  have hnext := h.nextStructure_bounds
  obtain ⟨hlt, hne, hend⟩ := h
  have huuid (hu : s.cursor + 3 < s.len) :
      le16 (byteAt s.inBytes (s.cursor + 2)) (byteAt s.inBytes (s.cursor + 3)) = s.adUuid := by
    rw [s.byteAt_inBytes (by omega), s.byteAt_inBytes hu, State.adUuid]
  have htype : byteAt s.inBytes (s.cursor + 1) = s.adType := s.byteAt_inBytes (by omega)
  simp only [scanBytesFrom, State.inBytes_length, s.byteAt_inBytes hlt, htype, ge_iff_le, gt_iff_lt, hlt.not_ge,
    byte_toNat_ne_zero hne, Nat.not_lt.mpr hend, if_false, ← Nat.not_lt, ite_not]
  split
  · split
    · rename_i h2
      rw [s.byteAt_inBytes h2, State.nextStructure]
    · rfl
  split
  · split
    · rename_i h3
      rw [huuid h3, State.nextStructure]
    · rfl
  split
  · split
    · rename_i h4
      rw [huuid (by omega), s.byteAt_inBytes h4]
      simp only [isFrameType_iff, ite_not]
    · rfl
  · rfl

/-- The scanner computes `scan(B, n)` from any cursor inside the input: each iteration that goes on passes two bytes or
more, so neither bound on the iterations is met (R110). -/
theorem scanLoop_eq_scanBytesFrom (n : Nat) {k : Nat} {s : State} (hin : s.cursor ≤ s.len)
    (hn : s.len < s.cursor + 2 * n) (hk : s.len < s.cursor + k) :
    scanLoop n s = answerWith s.scanned (scanBytesFrom s.inBytes k s.cursor s.blk.header) := by
  induction n generalizing k s with
  | zero => omega
  | succ n ih =>
    obtain ⟨k, rfl⟩ : ∃ j, k = j + 1 := ⟨k - 1, by omega⟩
    by_cases hfit : s.structureFits
    · have hnext := hfit.nextStructure_bounds
      have hlen := s.len_le
      have hcont (hd : Header) : scanLoop n (s.scanned (hd, s.nextStructure)) =
          answerWith s.scanned (scanBytesFrom s.inBytes k s.nextStructure hd) := by
        have hcur : (s.scanned (hd, s.nextStructure)).cursor = s.nextStructure := s.scanned_cursor (by simp; omega)
        rw [ih (k := k) (by simp; omega) (by simp; omega) (by simp; omega), hcur]
        simp
      rw [scanLoop_succ_of_fits hfit, scanBytesFrom_succ_of_fits hfit, decodeAd]
      split
      · simp only [runAdRow, adFlags_of_fits hfit]
        split
        · exact hcont _
        · rfl
      split
      · simp only [runAdRow, adUuid16_of_fits hfit]
        split
        · split
          · exact hcont _
          · rfl
        · rfl
      split
      · simp only [runAdRow, adSvcdata16_of_fits hfit]
        split
        · split
          · split
            · rfl
            · rfl
          · rfl
        · rfl
      · simp only [runAdRow, adSkip_of_fits hfit]
        exact hcont _
    · exact scanLoop_succ_of_not_fits hfit n k s.blk.header

/-- `scan` on a cleared block computes `scan(B, n)` (R111). -/
theorem scan_clear (s : State) : scan s.clear = answerWith s.clear.scanned (scanBytes s.inBytes) := by
  have hlen := s.len_le
  rw [scan, scanLoop_eq_scanBytesFrom (k := s.inBytes.length + 1)]
  · rfl
  · simp
  · simp [Config.scanIterations]
    omega
  · simp

/-! ### The URL decoder (R142 to R148) -/

/-- `s` with `text` in the text registers and nothing else in them. -/
def State.putText (s : State) (text : List Byte) : State :=
  s.setResult { s.blk.result with url := Memory.writeBytes [] 0 text, urlLen := BitVec.ofNat 7 text.length }

theorem State.putText_urlCursor (s : State) {text : List Byte} (h : text.length ≤ 108) :
    (s.putText text).urlCursor = text.length := by
  simp [State.putText, State.urlCursor]
  omega

theorem emit_putText (s : State) {text chars : List Byte} (h : (text ++ chars).length ≤ 108) :
    emit chars (s.putText text) = .ok (s.putText (text ++ chars)) := by
  rw [List.length_append] at h
  have hcur : (s.putText text).urlCursor = text.length := s.putText_urlCursor (by omega)
  refine emit_ok_iff.mpr ⟨by simpa [hcur, Config.rUrlSize] using h, ?_⟩
  rw [hcur]
  simp [State.putText, State.setResult, Memory.writeBytes_append]

theorem prefixRom_length_le (k : Nat) (hk : k ≤ 3) : 7 ≤ (prefixRom k).length ∧ (prefixRom k).length ≤ 12 := by
  revert k; decide

theorem symbolText_length_le (b : Byte) : (symbolText b).length ≤ 6 := by
  have hrom : ∀ k < 14, (suffixRom k).length ≤ 6 := by decide
  unfold symbolText
  split
  · exact hrom _ ‹_›
  · simp

theorem flatMap_symbolText_length_le (body : List Byte) : (body.flatMap symbolText).length ≤ 6 * body.length := by
  induction body with
  | nil => simp
  | cons b rest ih =>
    have := symbolText_length_le b
    simp only [List.flatMap_cons, List.length_append, List.length_cons]
    omega

/-- A body of at most 16 bytes gives a text of 7 to 108 characters (R148). -/
theorem urlDecode_length_bounds {k : Nat} {body : List Byte} (hk : k ≤ 3) (hb : body.length ≤ 16) :
    7 ≤ (urlDecode k body).length ∧ (urlDecode k body).length ≤ 108 := by
  have hp := prefixRom_length_le k hk
  have hs := flatMap_symbolText_length_le body
  simp only [urlDecode, List.length_append]
  omega

theorem runUrlRow_sym (b : Byte) (s : State) : runUrlRow (decodeByte .sym b) s = emit (symbolText b) s := by
  simp only [decodeByte, decodeSym, symbolText]
  split
  case h_15 =>
    have hlit : ¬ b.toNat < 14 := by
      simp only [imp_false] at *
      omega
    rw [if_neg hlit]
    rfl
  all_goals
    rename_i hb
    rw [hb]
    rfl

theorem emitBody_putText (body : List Byte) (s : State) {text : List Byte}
    (h : (text ++ body.flatMap symbolText).length ≤ 108) :
    emitBody body (s.putText text) = .ok (s.putText (text ++ body.flatMap symbolText)) := by
  induction body generalizing text with
  | nil => simp [emitBody]
  | cons b rest ih =>
    rw [List.flatMap_cons, ← List.append_assoc] at h ⊢
    have hfit : (text ++ symbolText b).length ≤ 108 := by
      rw [List.length_append] at h
      omega
    rw [emitBody, runUrlRow_sym, emit_putText s hfit]
    exact ih h

theorem emitPrefix_eq_putText {k : Nat} (hk : k ≤ 3) (s : State) :
    emitPrefix k s = .ok (s.putText (prefixRom k)) := by
  have hlen := (prefixRom_length_le k hk).2
  refine emit_ok_iff.mpr ⟨?_, ?_⟩
  · simp [State.urlCursor, Config.rUrlSize]
    omega
  · simp [State.putText, State.urlCursor, State.setResult]

theorem runUrlRow_scheme (b : Byte) (s : State) :
    runUrlRow (decodeByte .scheme b) s =
      if b.toNat ≤ 3 then .ok (s.putText (prefixRom b.toNat)) else raise .invalidScheme := by
  simp only [decodeByte, decodeScheme]
  split
  · rename_i h0
    rw [h0]
    exact emitPrefix_eq_putText (k := 0) (by decide) s
  split
  · rename_i h1
    rw [h1]
    exact emitPrefix_eq_putText (k := 1) (by decide) s
  split
  · rename_i h2
    rw [h2]
    exact emitPrefix_eq_putText (k := 2) (by decide) s
  split
  · rename_i h3
    rw [h3]
    exact emitPrefix_eq_putText (k := 3) (by decide) s
  · have hinv : ¬ b.toNat ≤ 3 := by bv_omega
    rw [if_neg hinv]
    rfl

/-- `url_decode` on the block: the text registers get the text, or the scheme byte raises before any character
(R146). -/
theorem runUrl_eq_urlDecode (scheme : Byte) {body : List Byte} (hb : body.length ≤ 16) (s : State) :
    runUrl scheme body s =
      if scheme.toNat ≤ 3 then .ok (s.putText (urlDecode scheme.toNat body)) else raise .invalidScheme := by
  rw [runUrl, runUrlRow_scheme]
  split
  · exact emitBody_putText body s (urlDecode_length_bounds ‹_› hb).2
  · rfl

/-! ### The frame decoder (R120 to R127) and the packet builder (R171) -/

/-- The reserved pair of a 19-byte UID payload is its last two bytes, and a 17-byte payload has none. -/
theorem drop_17_eq {p : List Byte} (h : p.length = 17 ∨ p.length = 19) :
    p.drop 17 = if p.length = 19 then [byteAt p 17, byteAt p 18] else [] := by
  obtain h17 | h19 := h
  · simp [h17, List.drop_eq_nil_of_le]
  · apply List.ext_getElem
    · simp [h19]
    · intro i hi _
      have hi' : i < 2 := by simpa [h19] using hi
      interval_cases i <;> simp [h19, byteAt]

theorem frameDecode_uid (p : List Byte) :
    frameDecode 0x00 p = if p.length ≠ 17 ∧ p.length ≠ 19 then .error .lengthMismatch
      else .ok { FrameResult.cleared with
        kind := 1
        txpower := byteAt p 0
        nspace := Memory.writeBytes [] 0 ((p.drop 1).take 10)
        inst := Memory.writeBytes [] 0 ((p.drop 11).take 6)
        rsvdPresent := if p.length = 19 then 1 else 0
        rsvd := if p.length = 19 then Memory.writeBytes [] 0 [byteAt p 17, byteAt p 18] else [] } := rfl

theorem frameDecode_url (p : List Byte) :
    frameDecode 0x10 p = if p.length < 2 then .error .lengthMismatch
      else if p.length - 1 > 17 then .error .lengthMismatch
      else if (byteAt p 1).toNat > 3 then .error .invalidScheme
      else .ok { FrameResult.ofText (urlDecode (byteAt p 1).toNat (p.drop 2)) with
        kind := 2, txpower := byteAt p 0 } := rfl

theorem frameDecode_tlm (p : List Byte) :
    frameDecode 0x20 p = if p.length > 14 then .error .lengthMismatch
      else if p.length < 13 then .error .lengthMismatch
      else .ok { FrameResult.cleared with
        kind := 3
        version := byteAt p 0
        vbatt := be16 (byteAt p 1) (byteAt p 2)
        tempInt := byteAt p 3
        tempFrac := byteAt p 4
        advCount := be32 (byteAt p 5) (byteAt p 6) (byteAt p 7) (byteAt p 8)
        time := be32 (byteAt p 9) (byteAt p 10) (byteAt p 11) (byteAt p 12) } := rfl

theorem frameDecode_invalid {ft : Byte} (h0 : ft ≠ 0x00) (h1 : ft ≠ 0x10) (h2 : ft ≠ 0x20) (p : List Byte) :
    frameDecode ft p = .error .invalidFrameType := by
  simp only [frameDecode, h0, h1, h2, if_false]

theorem frameUid_eq_frameDecode {s : State} (hs : s.blk.result = FrameResult.cleared) :
    frameUid s = answerWith s.setResult (frameDecode 0x00 s.payload) := by
  simp only [frameUid, require_bind_eq, Bool.or_eq_true, beq_iff_eq, frameDecode_uid, hs]
  change (if s.payload.length = 17 ∨ s.payload.length = 19 then _ else _) = _
  by_cases hlen : s.payload.length = 17 ∨ s.payload.length = 19
  · rw [if_pos hlen, if_neg (by rw [← not_or, not_not]; exact hlen), drop_17_eq hlen]
    split
    · rename_i h19
      rw [h19]
      rfl
    · rename_i h19
      rw [show (s.payload.length == Config.uidLenLong) = false from beq_eq_false_iff_ne.mpr h19]
      rfl
  · rw [if_neg hlen, if_pos (not_or.mp hlen)]
    rfl

theorem frameUrl_eq_frameDecode {s : State} (hs : s.blk.result = FrameResult.cleared) :
    frameUrl s = answerWith s.setResult (frameDecode 0x10 s.payload) := by
  simp only [frameUrl, require_bind_eq, decide_eq_true_eq, frameDecode_url, hs]
  change (if 2 ≤ s.payload.length then if s.payload.length - 1 ≤ 17 then _ else _ else _) = _
  by_cases hmin : s.payload.length < 2
  · rw [if_neg hmin.not_ge, if_pos hmin]
    rfl
  rw [if_pos (Nat.le_of_not_lt hmin), if_neg hmin]
  by_cases hmax : s.payload.length - 1 > 17
  · rw [if_neg hmax.not_ge, if_pos hmax]
    rfl
  rw [if_pos (Nat.le_of_not_lt hmax), if_neg hmax, runUrl_eq_urlDecode _ (by simp; omega)]
  split
  · rw [if_neg (by omega)]
    rfl
  · rw [if_pos (by omega)]
    rfl

theorem frameTlm_eq_frameDecode {s : State} (hs : s.blk.result = FrameResult.cleared) :
    frameTlm s = answerWith s.setResult (frameDecode 0x20 s.payload) := by
  simp only [frameTlm, require_bind_eq, decide_eq_true_eq, frameDecode_tlm, hs]
  change (if s.payload.length ≤ 14 then if 13 ≤ s.payload.length then _ else _ else _) = _
  by_cases hmax : s.payload.length > 14
  · rw [if_neg hmax.not_ge, if_pos hmax]
    rfl
  rw [if_pos (Nat.le_of_not_lt hmax), if_neg hmax]
  by_cases hmin : s.payload.length < 13
  · rw [if_neg hmin.not_ge, if_pos hmin]
    rfl
  · rw [if_pos (Nat.le_of_not_lt hmin), if_neg hmin]
    rfl

/-- `frame_decode` on the block, from cleared result registers (R120). -/
theorem runFrame_eq_frameDecode (ft : Byte) {s : State} (hs : s.blk.result = FrameResult.cleared) :
    runFrame ft s = answerWith s.setResult (frameDecode ft s.payload) := by
  rw [runFrame, decodeByte, decodeFrame]
  split
  · rename_i h0
    rw [h0]
    exact frameUid_eq_frameDecode hs
  split
  · rename_i h1
    rw [h1]
    exact frameUrl_eq_frameDecode hs
  split
  · rename_i h2
    rw [h2]
    exact frameTlm_eq_frameDecode hs
  · rw [frameDecode_invalid ‹_› ‹_› ‹_›]
    rfl

/-- The packet builder runs the frame decoder for its verdict and writes the packet (R171, R172). -/
theorem buildPacket_clear (overhead : Nat) (s : State) :
    buildPacket overhead s.clear =
      answerWith s.clear.setOut (buildBytes overhead s.host.arg s.inBytes) := by
  rw [buildPacket, buildBytes, runFrame_eq_frameDecode _ (by rfl), require_bind_eq]
  simp only [State.clear_len, State.clear_host, State.clear_payload, State.inBytes_length, bne_iff_ne, ite_not]
  split
  · rfl
  · cases frameDecode s.host.arg s.inBytes <;> rfl

end Sys2Proof.Machine
end

