-- ==== Sys2Proof/Proofs/FunctionFacts.lean ====
section
/-! What the spec's functions answer when they accept: a beacon's header and a cursor inside the input, the registers
of one variant within their banks, an output that fits. -/

namespace Sys2Proof.Machine

/-- A check that an accepting function has passed. -/
theorem ok_of_check {α : Type} {c : Prop} [Decidable c] {e : ErrorKind} {x : Except ErrorKind α} {r : α}
    (h : (if c then .error e else x) = .ok r) : ¬ c ∧ x = .ok r := by
  by_cases hc : c
  · rw [if_pos hc] at h
    cases h
  · rw [if_neg hc] at h
    exact ⟨hc, h⟩

/-! ### The scan -/

/-- A header between two iterations of a scan: what R19 says of `H_SVC_UUID` and `H_FLAGS`. -/
abbrev Header.ScanInv (h : Header) : Prop :=
  (h.svcUuid = 0 ∨ h.svcUuid = 0xFEAA) ∧ (h.flagsValid = 0 → h.flags = 0)

/-- The header of a beacon (R19). -/
abbrev Header.IsBeacon (h : Header) : Prop :=
  h.svcDataType = 0xFEAA ∧ isFrameType h.frameType = true ∧ h.ScanInv

theorem scanBytesFrom_ok {b : List Byte} {k p p' : Nat} {h h' : Header} (hinv : h.ScanInv)
    (hr : scanBytesFrom b k p h = .ok (h', p')) : h'.IsBeacon ∧ 5 ≤ p' ∧ p' ≤ b.length := by
  induction k generalizing p h with
  | zero => cases hr
  | succ k ih =>
    obtain ⟨huuid, hflags⟩ := hinv
    simp only [scanBytesFrom] at hr
    obtain ⟨-, hr⟩ := ok_of_check hr
    obtain ⟨-, hr⟩ := ok_of_check hr
    obtain ⟨-, hr⟩ := ok_of_check hr
    by_cases h1 : byteAt b (p + 1) = 0x01
    · rw [if_pos h1] at hr
      refine ih ?_ (ok_of_check hr).2
      exact ⟨huuid, fun habs => absurd habs (show (1 : BitVec 1) ≠ 0 by decide)⟩
    rw [if_neg h1] at hr
    by_cases h3 : byteAt b (p + 1) = 0x03
    · rw [if_pos h3] at hr
      obtain ⟨-, hr⟩ := ok_of_check hr
      obtain ⟨hu, hr⟩ := ok_of_check hr
      refine ih ?_ hr
      exact ⟨.inr (not_not.mp hu), hflags⟩
    rw [if_neg h3] at hr
    by_cases h16 : byteAt b (p + 1) = 0x16
    · rw [if_pos h16] at hr
      obtain ⟨hbound, hr⟩ := ok_of_check hr
      obtain ⟨hu, hr⟩ := ok_of_check hr
      obtain ⟨hft, hr⟩ := ok_of_check hr
      obtain ⟨rfl, rfl⟩ : _ = h' ∧ p + 5 = p' := by simpa using hr
      exact ⟨⟨not_not.mp hu, isFrameType_iff.mpr hft, huuid, hflags⟩, by omega, by omega⟩
    · rw [if_neg h16] at hr
      exact ih ⟨huuid, hflags⟩ hr

theorem scanBytes_ok {b : List Byte} {h : Header} {p : Nat} (hr : scanBytes b = .ok (h, p)) :
    h.IsBeacon ∧ 5 ≤ p ∧ p ≤ b.length :=
  scanBytesFrom_ok ⟨.inl rfl, fun _ => rfl⟩ hr

/-! ### The frame decoder -/

/-- The banks of a frame result: in their ranges, and 0 at and above the text's length (R21, R53). -/
abbrev FrameResult.BankInv (r : FrameResult) : Prop :=
  r.nspace.Within 10 ∧ r.inst.Within 6 ∧ r.rsvd.Within 2 ∧ r.url.Within r.urlLen.toNat ∧ r.urlLen.toNat ≤ 108 ∧
  (r.urlLen = 0 ∨ 7 ≤ r.urlLen.toNat)

/-- A byte string written to an empty bank lies within any range that holds it. -/
theorem Memory.writeBytes_nil_within {bytes : List Byte} {n : Nat} (h : bytes.length ≤ n) :
    (Memory.writeBytes [] 0 bytes).Within n :=
  (Memory.within_nil n).writeBytes (by omega)

theorem FrameResult.cleared_bankInv : FrameResult.cleared.BankInv := by decide

/-- A decoded text in the text registers. -/
theorem FrameResult.ofText_bankInv {k : Nat} {body : List Byte} (hk : k ≤ 3) (hb : body.length ≤ 16) :
    (FrameResult.ofText (urlDecode k body)).BankInv := by
  obtain ⟨hmin, hmax⟩ := urlDecode_length_bounds hk hb
  have hlen : (FrameResult.ofText (urlDecode k body)).urlLen.toNat = (urlDecode k body).length := by
    simp [FrameResult.ofText]
    omega
  refine ⟨Memory.within_nil _, Memory.within_nil _, Memory.within_nil _, ?_, ?_, .inr ?_⟩ <;> rw [hlen]
  · exact Memory.writeBytes_nil_within le_rfl
  · exact hmax
  · exact hmin

/-- An accepted payload has at most 19 bytes, and fills the registers of one variant within their banks (R21, R127). -/
theorem frameDecode_ok {ft : Byte} {p : List Byte} {r : FrameResult} (hr : frameDecode ft p = .ok r) :
    p.length ≤ 19 ∧ r.VariantInv ∧ r.BankInv := by
  by_cases h0 : ft = 0x00
  · rw [h0, frameDecode_uid] at hr
    obtain ⟨hlen, hr⟩ := ok_of_check hr
    cases hr
    refine ⟨by omega, .inr (.inl ⟨rfl, rfl, ?_⟩), ?_, ?_, ?_, FrameResult.cleared_bankInv.2.2.2⟩
    · intro habs
      exact if_neg fun h19 => absurd ((if_pos h19).symm.trans habs) (by decide)
    · exact Memory.writeBytes_nil_within (by simp)
    · exact Memory.writeBytes_nil_within (by simp)
    · simp only
      split
      · exact Memory.writeBytes_nil_within (by simp)
      · exact Memory.within_nil 2
  by_cases h1 : ft = 0x10
  · rw [h1, frameDecode_url] at hr
    obtain ⟨hmin, hr⟩ := ok_of_check hr
    obtain ⟨hmax, hr⟩ := ok_of_check hr
    obtain ⟨hscheme, hr⟩ := ok_of_check hr
    cases hr
    exact ⟨by omega, .inr (.inr (.inl ⟨rfl, rfl⟩)), FrameResult.ofText_bankInv (by omega) (by simp; omega)⟩
  by_cases h2 : ft = 0x20
  · rw [h2, frameDecode_tlm] at hr
    obtain ⟨hmax, hr⟩ := ok_of_check hr
    obtain ⟨hmin, hr⟩ := ok_of_check hr
    cases hr
    exact ⟨by omega, .inr (.inr (.inr ⟨rfl, rfl⟩)), FrameResult.cleared_bankInv⟩
  · rw [frameDecode_invalid h0 h1 h2] at hr
    cases hr

/-! ### The encoder -/

/-- The body limit of R154, from any number of body bytes written so far. -/
theorem encodeBody_length_le {text body : List Byte} {skip o : Nat} (ho : o ≤ 16)
    (hr : encodeBody text skip o = .ok body) : o + body.length ≤ 16 := by
  induction text generalizing skip o body with
  | nil =>
    cases hr
    exact ho
  | cons c rest ih =>
    cases skip with
    | succ skip => exact ih ho hr
    | zero =>
      have hcont {next : Nat} {code : Byte} (hroom : o ≠ 16)
          (h : (do let tail ← encodeBody rest next (o + 1); return code :: tail) = .ok body) :
          o + body.length ≤ 16 := by
        obtain ⟨tail, htail, hbody⟩ := bind_ok_iff.mp h
        cases hbody
        have := ih (by omega) htail
        simp only [List.length_cons]
        omega
      simp only [encodeBody] at hr
      split at hr
      · obtain ⟨hroom, hr⟩ := ok_of_check hr
        exact hcont hroom hr
      · obtain ⟨-, hr⟩ := ok_of_check hr
        obtain ⟨hroom, hr⟩ := ok_of_check hr
        exact hcont hroom hr

theorem urlEncode_body_length_le {text body : List Byte} {k : Nat} (hr : urlEncode text = .ok (k, body)) :
    body.length ≤ 16 := by
  unfold urlEncode at hr
  obtain ⟨-, hr⟩ := ok_of_check hr
  split at hr
  · cases hr
  · obtain ⟨b, hb, hr⟩ := bind_ok_iff.mp hr
    cases hr
    have := encodeBody_length_le (by omega) hb
    omega

theorem packetBytes_length (overhead : Nat) (ft : Byte) (p : List Byte) :
    (packetBytes overhead ft p).length = 12 + p.length := by
  simp [packetBytes]
  omega

end Sys2Proof.Machine
end

