-- ==== Sys2Proof/Proofs/CommandResults.lean ====
section
/-! Every command reports the answer of a function of its arguments alone: the input bytes, `ARG` and the text. -/

namespace Sys2Proof.Machine

/-! ### The function of each command -/

/-- What a command leaves in the block-written registers when it succeeds, or its error, as a function of the bytes of
`IN_BUF` below `IN_LEN`, of `ARG` and of the bytes of `TXT_IN` below `TXT_IN_LEN` (R183 to R189). The rows of the other
formats are no commands and have no part in this. -/
def commandAnswer (i : Instr) (b : List Byte) (arg : Byte) (text : List Byte) : Except ErrorKind BlockRegs :=
  match i with
  | .cmdDecode => (decodeBytes b).map fun x => { BlockRegs.ofScan x.1 x.2.1 with result := x.2.2 }
  | .cmdScan =>
    if b.length = 0 then .error .invalidArgument else (scanBytes b).map fun x => BlockRegs.ofScan x.1 x.2
  | .cmdFrame => (frameDecode arg b).map BlockRegs.ofResult
  | .cmdUrldec =>
    if 16 < b.length then .error .lengthMismatch
    else if 3 < arg.toNat then .error .invalidScheme
    else .ok (BlockRegs.ofResult (FrameResult.ofText (urlDecode arg.toNat b)))
  | .cmdUrlenc => (urlEncode text).map fun x => BlockRegs.ofOut (encodedUrlBytes x)
  | .cmdBuild => (buildBytes 1 arg b).map BlockRegs.ofOut
  | _ => .error .invalidArgument

/-- Report (R182): the state a command leaves, from its function's answer. -/
def State.report (s : State) : Except ErrorKind BlockRegs → State
  | .ok b => s.succeed b
  | .error e => s.takeError e

theorem runCommand_of_answer {s : State} {f : State → Except Stop State} {x : Except ErrorKind BlockRegs}
    (h : f s.clear = answerWith s.setBlk x) : runCommand s f = .next (s.report x) := by
  cases x with
  | ok b => exact runCommand_ok h
  | error e => exact runCommand_raise h

/-! ### Each command computes its function -/

/-- The payload of the frame that a scan found: the input from the cursor on (R54). -/
theorem scanned_clear_payload {s : State} {h : Header} {p : Nat} (hr : scanBytes s.inBytes = .ok (h, p)) :
    (s.clear.scanned (h, p)).payload = s.inBytes.drop p := by
  have hp : p ≤ s.len := by simpa using (scanBytes_ok hr).2.2
  have hlen := s.len_le
  rw [State.payload_eq_drop, State.scanned_cursor _ (by simp; omega)]
  rfl

theorem cmdScan_clear (s : State) :
    cmdScan s.clear = answerWith s.setBlk (commandAnswer .cmdScan s.inBytes s.host.arg s.text) := by
  simp only [cmdScan, require_bind_eq, bne_iff_ne, ite_not, scan_clear, commandAnswer, State.inBytes_length,
    State.clear_len]
  split
  · rfl
  · rw [answerWith_map]
    rfl

theorem cmdDecode_clear (s : State) :
    cmdDecode s.clear = answerWith s.setBlk (commandAnswer .cmdDecode s.inBytes s.host.arg s.text) := by
  simp only [cmdDecode, require_bind_eq, bne_iff_ne, ite_not, scan_clear, commandAnswer, decodeBytes,
    State.inBytes_length, State.clear_len]
  split
  · rfl
  cases hscan : scanBytes s.inBytes with
  | error e => rfl
  | ok x =>
    obtain ⟨h, p⟩ := x
    have hframe := runFrame_eq_frameDecode h.frameType (s := s.clear.scanned (h, p)) rfl
    rw [scanned_clear_payload hscan] at hframe
    refine hframe.trans ?_
    simp only
    cases frameDecode h.frameType (s.inBytes.drop p) <;> rfl

theorem cmdFrame_clear (s : State) :
    cmdFrame s.clear = answerWith s.setBlk (commandAnswer .cmdFrame s.inBytes s.host.arg s.text) := by
  rw [cmdFrame, runFrame_eq_frameDecode _ rfl, commandAnswer, answerWith_map]
  rfl

theorem cmdUrldec_clear (s : State) :
    cmdUrldec s.clear = answerWith s.setBlk (commandAnswer .cmdUrldec s.inBytes s.host.arg s.text) := by
  change (require (s.len ≤ 16) .lengthMismatch >>= fun _ => runUrl s.host.arg s.inBytes s.clear) = _
  simp only [require_bind_eq, decide_eq_true_eq, commandAnswer, State.inBytes_length]
  by_cases hlen : s.len ≤ 16
  · rw [if_pos hlen, if_neg (by omega), runUrl_eq_urlDecode _ (by simpa using hlen)]
    by_cases hk : s.host.arg.toNat ≤ 3
    · rw [if_pos hk, if_neg (by omega)]
      rfl
    · rw [if_neg hk, if_pos (by omega)]
      rfl
  · rw [if_neg hlen, if_pos (by omega)]
    rfl

theorem cmdUrlenc_clear (s : State) :
    cmdUrlenc s.clear = answerWith s.setBlk (commandAnswer .cmdUrlenc s.inBytes s.host.arg s.text) := by
  rw [cmdUrlenc, commandAnswer, answerWith_map, State.clear_text]
  cases urlEncode s.text <;> rfl

theorem cmdBuild_clear (s : State) :
    cmdBuild s.clear = answerWith s.setBlk (commandAnswer .cmdBuild s.inBytes s.host.arg s.text) := by
  rw [cmdBuild, buildPacket_clear, commandAnswer, answerWith_map]
  rfl

/-- Every command ends, and leaves what its function of the arguments answers (R180, R182). -/
theorem exec_command {i : Instr} (hi : isCommand i = true) (s : State) :
    exec i s = .next (s.report (commandAnswer i s.inBytes s.host.arg s.text)) := by
  cases i with
  | cmdDecode => exact runCommand_of_answer (cmdDecode_clear s)
  | cmdScan => exact runCommand_of_answer (cmdScan_clear s)
  | cmdFrame => exact runCommand_of_answer (cmdFrame_clear s)
  | cmdUrldec => exact runCommand_of_answer (cmdUrldec_clear s)
  | cmdUrlenc => exact runCommand_of_answer (cmdUrlenc_clear s)
  | cmdBuild => exact runCommand_of_answer (cmdBuild_clear s)
  | cmdReserved code => rfl
  | _ => cases hi

theorem isCommand_decodeByte_cmd (c : Byte) : isCommand (decodeByte .cmd c) = true := by
  simp only [decodeByte, decodeCmd]
  split_ifs <;> rfl

/-! ### What a success leaves -/

/-- A command's success with its function's answer: one constructor for each command that can succeed. -/
inductive CommandSuccess (b : List Byte) (arg : Byte) (text : List Byte) : Instr → BlockRegs → Prop
  | decode {h p r} (hscan : scanBytes b = .ok (h, p)) (hframe : frameDecode h.frameType (b.drop p) = .ok r) :
      CommandSuccess b arg text .cmdDecode { BlockRegs.ofScan h p with result := r }
  | scan {h p} (hscan : scanBytes b = .ok (h, p)) : CommandSuccess b arg text .cmdScan (BlockRegs.ofScan h p)
  | frame {r} (hframe : frameDecode arg b = .ok r) : CommandSuccess b arg text .cmdFrame (BlockRegs.ofResult r)
  | urldec (hb : b.length ≤ 16) (hk : arg.toNat ≤ 3) :
      CommandSuccess b arg text .cmdUrldec (BlockRegs.ofResult (FrameResult.ofText (urlDecode arg.toNat b)))
  | urlenc {k body} (henc : urlEncode text = .ok (k, body)) :
      CommandSuccess b arg text .cmdUrlenc (BlockRegs.ofOut (encodedUrlBytes (k, body)))
  | build {r} (hframe : frameDecode arg b = .ok r) :
      CommandSuccess b arg text .cmdBuild (BlockRegs.ofOut (packetBytes 1 arg b))

theorem map_ok_iff {α β : Type} {f : α → β} {x : Except ErrorKind α} {y : β} :
    x.map f = .ok y ↔ ∃ a, x = .ok a ∧ f a = y := by
  cases x <;> simp [Except.map]

theorem commandAnswer_ok {i : Instr} {b text : List Byte} {arg : Byte} {r : BlockRegs}
    (h : commandAnswer i b arg text = .ok r) : CommandSuccess b arg text i r := by
  cases i with
  | cmdDecode =>
    obtain ⟨⟨hd, p, fr⟩, hdec, rfl⟩ := map_ok_iff.mp h
    unfold decodeBytes at hdec
    obtain ⟨-, hdec⟩ := ok_of_check hdec
    split at hdec
    · cases hdec
    split at hdec
    · cases hdec
    · cases hdec
      exact .decode ‹_› ‹_›
  | cmdScan =>
    obtain ⟨-, hmap⟩ := ok_of_check h
    obtain ⟨⟨hd, p⟩, hscan, rfl⟩ := map_ok_iff.mp hmap
    exact .scan hscan
  | cmdFrame =>
    obtain ⟨fr, hframe, rfl⟩ := map_ok_iff.mp h
    exact .frame hframe
  | cmdUrldec =>
    obtain ⟨hb, h⟩ := ok_of_check h
    obtain ⟨hk, h⟩ := ok_of_check h
    cases h
    exact .urldec (by omega) (by omega)
  | cmdUrlenc =>
    obtain ⟨⟨k, body⟩, henc, rfl⟩ := map_ok_iff.mp h
    exact .urlenc henc
  | cmdBuild =>
    obtain ⟨pkt, hbuild, rfl⟩ := map_ok_iff.mp h
    unfold buildBytes at hbuild
    obtain ⟨-, hbuild⟩ := ok_of_check hbuild
    split at hbuild
    · cases hbuild
    · cases hbuild
      exact .build ‹_›
  | _ => cases h

/-- How a command ends: a success with its function's answer, or an error entry. -/
theorem exec_command_cases {i : Instr} {s t : State} (hi : isCommand i = true) (h : exec i s = .next t) :
    (∃ r, CommandSuccess s.inBytes s.host.arg s.text i r ∧ t = s.succeed r) ∨ ∃ e, t = s.takeError e := by
  have ht : s.report (commandAnswer i s.inBytes s.host.arg s.text) = t := by
    simpa [exec_command hi s] using h
  cases hans : commandAnswer i s.inBytes s.host.arg s.text with
  | ok r => exact .inl ⟨r, commandAnswer_ok hans, by rw [← ht, hans]; rfl⟩
  | error e => exact .inr ⟨e, by rw [← ht, hans]; rfl⟩

@[simp] theorem State.succeed_err (s : State) (r : BlockRegs) : (s.succeed r).err = false :=
  show statusDone.getLsbD 1 = false by decide

@[simp] theorem State.takeError_err (s : State) (e : ErrorKind) : (s.takeError e).err = true :=
  show statusDoneErr.getLsbD 1 = true by decide

/-! ### The statements about commands as a whole -/

/-- The arguments of R27 determine the answer. -/
theorem commandAnswer_congr {i : Instr} {s t : State} (h : sameArguments i s t) :
    commandAnswer i s.inBytes s.host.arg s.text = commandAnswer i t.inBytes t.host.arg t.text := by
  cases i with
  | cmdDecode | cmdScan =>
    have hin : s.inBytes = t.inBytes := h
    simp only [commandAnswer, hin]
  | cmdFrame | cmdUrldec | cmdBuild =>
    obtain ⟨hin, harg⟩ : s.inBytes = t.inBytes ∧ s.host.arg = t.host.arg := h
    simp only [commandAnswer, hin, harg]
  | cmdUrlenc =>
    have htext : s.text = t.text := h
    simp only [commandAnswer, htext]
  | _ => rfl

/-- The block-written registers that a report leaves do not depend on the state reported into. -/
theorem State.report_blk_congr (s t : State) (x : Except ErrorKind BlockRegs) :
    (s.report x).blk = (t.report x).blk := by
  cases x <;> rfl

/-- Settles O14: both runs report the same answer, `commandAnswer_congr`. -/
theorem commandsDependOnlyOnTheirArguments : Obligations.CommandsDependOnlyOnTheirArguments := by
  intro i s t hi hsame
  refine ⟨_, _, exec_command hi s, exec_command hi t, ?_⟩
  rw [commandAnswer_congr hsame]
  exact State.report_blk_congr s t _

/-- Settles O16, by the command that succeeded; an error entry leaves every group cleared. -/
theorem commandsWriteOnlyTheirResultGroups : Obligations.CommandsWriteOnlyTheirResultGroups := by
  intro i s t hi h
  obtain ⟨r, hsucc, rfl⟩ | ⟨e, rfl⟩ := exec_command_cases hi h
  · cases hsucc with
    | decode =>
      exact ⟨fun h _ => absurd rfl h, fun h _ _ => absurd rfl h, nofun, fun _ _ => ⟨rfl, rfl⟩⟩
    | scan => exact ⟨fun _ h => absurd rfl h, fun _ _ _ => rfl, nofun, fun _ _ => ⟨rfl, rfl⟩⟩
    | frame => exact ⟨fun _ _ => ⟨rfl, rfl⟩, fun _ h _ => absurd rfl h, nofun, fun _ _ => ⟨rfl, rfl⟩⟩
    | urldec => exact ⟨fun _ _ => ⟨rfl, rfl⟩, fun _ _ h => absurd rfl h, fun _ => rfl, fun _ _ => ⟨rfl, rfl⟩⟩
    | urlenc => exact ⟨fun _ _ => ⟨rfl, rfl⟩, fun _ _ _ => rfl, nofun, fun h _ => absurd rfl h⟩
    | build => exact ⟨fun _ _ => ⟨rfl, rfl⟩, fun _ _ _ => rfl, nofun, fun _ h => absurd rfl h⟩
  · exact ⟨fun _ _ => ⟨rfl, rfl⟩, fun _ _ _ => rfl, fun _ => rfl, fun _ _ => ⟨rfl, rfl⟩⟩

/-- The header and cursor that a scan leaves in the block: a beacon's, with the cursor inside the input (R17, R19). -/
theorem scanBytes_inBytes_ok {s : State} {h : Header} {p : Nat} (hr : scanBytes s.inBytes = .ok (h, p)) :
    5 ≤ (BitVec.ofNat 5 p).toNat ∧ (BitVec.ofNat 5 p).toNat ≤ s.len ∧ h.IsBeacon := by
  obtain ⟨hbeacon, hmin, hmax⟩ := scanBytes_ok hr
  rw [State.inBytes_length] at hmax
  have hlen := s.len_le
  have hp : (BitVec.ofNat 5 p).toNat = p := by
    simp
    omega
  exact ⟨by omega, by omega, hbeacon⟩

/-- Settles O25. -/
theorem cursorAndHeaderAfterACommand : Obligations.CursorAndHeaderAfterACommand := by
  intro i s t hi h
  obtain ⟨r, hsucc, rfl⟩ | ⟨e, rfl⟩ := exec_command_cases hi h
  · cases hsucc with
    | decode hscan | scan hscan =>
      obtain ⟨hmin, hmax, hbeacon⟩ := scanBytes_inBytes_ok hscan
      rw [if_pos ⟨by simp, s.succeed_err _⟩]
      exact ⟨hmin, hmax, hbeacon⟩
    | frame | urldec | urlenc | build =>
      rw [if_neg (by simp)]
      exact ⟨rfl, rfl⟩
  · rw [if_neg (by simp)]
    exact ⟨rfl, rfl⟩

end Sys2Proof.Machine
end

