-- ==== Sys2Proof/Proofs/Invariant.lean ====
section
/-! The invariant holds at reset and every step keeps it. -/

namespace Sys2Proof.Machine

/-- The invariant's clauses about the block-written registers. -/
abbrev BlockRegs.Inv (b : BlockRegs) : Prop :=
  b.StatusInv ∧ b.HeaderInv ∧ b.result.VariantInv ∧ b.BankInv

theorem BlockRegs.cleared_inv : BlockRegs.cleared.Inv := by decide

/-- An error entry meets the invariant (R210). -/
theorem BlockRegs.failed_inv (e : ErrorKind) : (BlockRegs.failed e).Inv := by
  cases e <;> decide

theorem FrameResult.cleared_variantInv : FrameResult.cleared.VariantInv := .inl ⟨rfl, rfl⟩

theorem BlockRegs.bankInv_of {b : BlockRegs} (hresult : b.result.BankInv) (hout : b.outBuf.Within b.outLen.toNat) :
    b.BankInv := by
  obtain ⟨hnspace, hinst, hrsvd, hurl, hmax, hmin⟩ := hresult
  exact ⟨hnspace, hinst, hrsvd, hurl, hmax, hmin, hout⟩

/-- A success that leaves output bytes in otherwise cleared registers (R24). -/
theorem State.succeed_ofOut_inv (s : State) {bytes : List Byte} (h : bytes.length ≤ 31) :
    (s.succeed (BlockRegs.ofOut bytes)).blk.Inv := by
  have hlen : (BitVec.ofNat 5 bytes.length).toNat = bytes.length := by
    simp
    omega
  refine ⟨.inr (.inl ⟨rfl, rfl⟩), .inl ⟨rfl, rfl⟩, FrameResult.cleared_variantInv,
    BlockRegs.bankInv_of FrameResult.cleared_bankInv ?_⟩
  rw [State.succeed_blk_outBuf, State.succeed_blk_outLen, BlockRegs.ofOut, hlen]
  exact Memory.writeBytes_nil_within le_rfl

/-- A success of a command meets the invariant (R212), with the results of its function. -/
theorem CommandSuccess.inv {s : State} {i : Instr} {r : BlockRegs}
    (h : CommandSuccess s.inBytes s.host.arg s.text i r) : (s.succeed r).blk.Inv := by
  have hstatus (h0 : r.errCode = 0) : (s.succeed r).blk.StatusInv := .inr (.inl ⟨rfl, h0⟩)
  cases h with
  | decode hscan hframe =>
    obtain ⟨hmin, -, hbeacon⟩ := scanBytes_inBytes_ok hscan
    obtain ⟨-, hvariant, hbanks⟩ := frameDecode_ok hframe
    exact ⟨hstatus rfl, .inr ⟨hmin, hbeacon⟩, hvariant, BlockRegs.bankInv_of hbanks (Memory.within_nil _)⟩
  | scan hscan =>
    obtain ⟨hmin, -, hbeacon⟩ := scanBytes_inBytes_ok hscan
    exact ⟨hstatus rfl, .inr ⟨hmin, hbeacon⟩, FrameResult.cleared_variantInv,
      BlockRegs.bankInv_of FrameResult.cleared_bankInv (Memory.within_nil _)⟩
  | frame hframe =>
    obtain ⟨-, hvariant, hbanks⟩ := frameDecode_ok hframe
    exact ⟨hstatus rfl, .inl ⟨rfl, rfl⟩, hvariant, BlockRegs.bankInv_of hbanks (Memory.within_nil _)⟩
  | urldec hb hk =>
    exact ⟨hstatus rfl, .inl ⟨rfl, rfl⟩, .inl ⟨rfl, rfl⟩,
      BlockRegs.bankInv_of (FrameResult.ofText_bankInv hk hb) (Memory.within_nil _)⟩
  | @urlenc k body henc =>
    have hbody := urlEncode_body_length_le henc
    have hlen : (encodedUrlBytes (k, body)).length ≤ 31 := by
      simp only [encodedUrlBytes, List.length_cons]
      omega
    exact s.succeed_ofOut_inv hlen
  | build hframe =>
    have hpayload := (frameDecode_ok hframe).1
    have hlen : (packetBytes 1 s.host.arg s.inBytes).length ≤ 31 := by
      rw [packetBytes_length]
      omega
    exact s.succeed_ofOut_inv hlen

/-- A command meets the invariant again, whatever was there before: it starts by clearing (R182). -/
theorem exec_command_blk_inv {i : Instr} {s t : State} (hi : isCommand i = true) (h : exec i s = .next t) :
    t.host = s.host ∧ t.blk.Inv := by
  obtain ⟨r, hsucc, rfl⟩ | ⟨e, rfl⟩ := exec_command_cases hi h
  · exact ⟨rfl, hsucc.inv⟩
  · exact ⟨rfl, BlockRegs.failed_inv e⟩

/-- A host event other than a `CMD` write keeps the invariant. -/
theorem HostEvent.apply_inv (e : HostEvent) {s : State} (h : s.Inv) : (e.apply s).Inv := by
  obtain ⟨hin, htxt, hblk⟩ := h
  cases e with
  | writeInBuf i b => exact ⟨hin.write i.isLt b, htxt, hblk⟩
  | writeTxtIn i b => exact ⟨hin, htxt.write i.isLt b, hblk⟩
  | reset a b =>
    refine ⟨Memory.writeBytes_nil_within ?_, Memory.writeBytes_nil_within ?_, BlockRegs.cleared_inv⟩
    · simp [Config.inBufSize]
    · simp [Config.txtInSize]
  | writeInLen | writeArg | writeTxtInLen | writeCmd | read => exact ⟨hin, htxt, hblk⟩

/-- Settles O10. -/
theorem resetMeetsTheInvariant : Obligations.ResetMeetsTheInvariant :=
  ⟨Memory.within_nil 31, Memory.within_nil 127, BlockRegs.cleared_inv⟩

/-- Settles O11, by the oldest host event: none, an access, or a command. -/
theorem everyStepKeepsTheInvariant : Obligations.EveryStepKeepsTheInvariant := by
  intro s t hinv hstep
  unfold step at hstep
  obtain ⟨-, hf⟩ | ⟨c, rest, -, hf⟩ | ⟨e, rest, -, -, hf⟩ := fetch_cases s <;> rw [hf] at hstep
  · cases hstep
    exact hinv
  · obtain ⟨hin, htxt, -⟩ := hinv
    obtain ⟨hhost, hblk⟩ := exec_command_blk_inv (isCommand_decodeByte_cmd c) hstep
    exact ⟨by rw [hhost]; exact hin, by rw [hhost]; exact htxt, hblk⟩
  · cases hstep
    exact e.apply_inv hinv

end Sys2Proof.Machine
end

