-- ==== Sys2Proof/Proofs/SymbolRows.lean ====
section
/-! The scheme and symbol rows run on their own, and where they stop. -/

namespace Sys2Proof.Machine

/-! ### A row of the URL maps on its own -/

/-- A scheme or symbol row run on its own ends as the row that the unit dispatches to (R78, R79). -/
theorem exec_urlRow {i : Instr} (hi : formatOf i = .scheme ∨ formatOf i = .sym) (s : State) :
    exec i s = finishRow s (runUrlRow i s) := by
  cases i
  case adFlags | adUuid16 | adSvcdata16 | adSkip | frameUid | frameUrl | frameTlm | frameInvalid
      | cmdReserved | cmdScan | cmdDecode | cmdFrame | cmdUrldec | cmdUrlenc | cmdBuild =>
    simp [formatOf] at hi
  all_goals rfl

theorem formatOf_decodeByte_sym (b : Byte) : formatOf (decodeByte .sym b) = .sym := by
  simp only [decodeByte, decodeSym]
  split <;> rfl

/-- A symbol row run on its own appends its symbol's text (R144, R145). -/
theorem exec_sym (b : Byte) (s : State) : exec (decodeByte .sym b) s = finishRow s (emit (symbolText b) s) := by
  rw [exec_urlRow (.inr (formatOf_decodeByte_sym b)), runUrlRow_sym]

theorem exec_urlLit (c : Byte) (s : State) : exec (.urlLit c) s = finishRow s (emit [c] s) := rfl

/-! ### The end of the bank -/

/-- A row whose text would pass the end of `R_URL` faults (R47, log 7). -/
theorem finishRow_emit_overflow {chars : List Byte} {s : State}
    (h : Config.rUrlSize < s.urlCursor + chars.length) :
    finishRow s (emit chars s) = .fault .urlBankOverflow := by
  rcases he : emit chars s with q | t
  · obtain ⟨rfl, -⟩ := emit_error he
    rfl
  · have hfit := (emit_ok_iff.mp he).1
    omega

/-- Settles O37: every symbol row appends its text, and an append past the bank faults. -/
theorem symbolRowsStopAtTheEndOfTheBank : Obligations.SymbolRowsStopAtTheEndOfTheBank := by
  intro s
  constructor
  · intro b hb hover
    have htext : symbolText b = suffixRom b.toNat := if_pos hb
    rw [exec_sym, htext]
    exact finishRow_emit_overflow hover
  · intro c hfull
    rw [exec_urlLit]
    exact finishRow_emit_overflow (Nat.lt_succ_of_le hfull)

end Sys2Proof.Machine
end

