-- ==== Sys2Proof/Proofs/CodeMaps.lean ====
section
/-! The five code maps (30_encoding.md R76 to R81): the row of a byte is the one well-formed instruction of the map's
format that the byte encodes. -/

namespace Sys2Proof

/-! ### Which bytes a default row stands for, in the terms of its map's tests -/

theorem wellFormed_adSkip_iff (t : Byte) : wellFormed (.adSkip t) = true ↔ t ≠ 0x01 ∧ t ≠ 0x03 ∧ t ≠ 0x16 := by
  simp [wellFormed, and_assoc]

theorem wellFormed_frameInvalid_iff (ft : Byte) :
    wellFormed (.frameInvalid ft) = true ↔ ft ≠ 0x00 ∧ ft ≠ 0x10 ∧ ft ≠ 0x20 := by
  simp [wellFormed, and_assoc]

theorem wellFormed_urlPfxinvalid_iff (s : Byte) :
    wellFormed (.urlPfxinvalid s) = true ↔ s ≠ 0 ∧ s ≠ 1 ∧ s ≠ 2 ∧ s ≠ 3 := by
  rw [wellFormed, decide_eq_true_iff]
  bv_omega

theorem wellFormed_urlLit_iff (c : Byte) : wellFormed (.urlLit c) = true ↔ 14 ≤ c.toNat := decide_eq_true_iff

theorem wellFormed_cmdReserved_iff (c : Byte) :
    wellFormed (.cmdReserved c) = true ↔ c ≠ 1 ∧ c ≠ 2 ∧ c ≠ 3 ∧ c ≠ 4 ∧ c ≠ 5 ∧ c ≠ 6 := by
  rw [wellFormed, Bool.or_eq_true, beq_iff_eq, decide_eq_true_iff]
  bv_omega

/-! ### The row of a byte -/

/-- `i` is a row that the map of format `f` holds for the byte `b`. -/
def IsRow (f : Format) (b : Byte) (i : Instr) : Prop :=
  wellFormed i = true ∧ formatOf i = f ∧ encodeByte i = b

theorem isRow_decodeAd (t : Byte) : IsRow .ad t (decodeAd t) := by
  unfold decodeAd
  split_ifs with h1 h2 h3
  case neg => exact ⟨(wellFormed_adSkip_iff t).mpr ⟨h1, h2, h3⟩, rfl, rfl⟩
  all_goals subst t; exact ⟨rfl, rfl, rfl⟩

theorem isRow_decodeFrame (ft : Byte) : IsRow .frame ft (decodeFrame ft) := by
  unfold decodeFrame
  split_ifs with h1 h2 h3
  case neg => exact ⟨(wellFormed_frameInvalid_iff ft).mpr ⟨h1, h2, h3⟩, rfl, rfl⟩
  all_goals subst ft; exact ⟨rfl, rfl, rfl⟩

theorem isRow_decodeScheme (s : Byte) : IsRow .scheme s (decodeScheme s) := by
  unfold decodeScheme
  split_ifs with h0 h1 h2 h3
  case neg => exact ⟨(wellFormed_urlPfxinvalid_iff s).mpr ⟨h0, h1, h2, h3⟩, rfl, rfl⟩
  all_goals subst s; exact ⟨rfl, rfl, rfl⟩

theorem isRow_decodeSym (b : Byte) : IsRow .sym b (decodeSym b) := by
  unfold decodeSym
  split
  case h_15 =>
    have hlit : 14 ≤ b.toNat := by
      simp only [imp_false] at *
      omega
    exact ⟨(wellFormed_urlLit_iff b).mpr hlit, rfl, rfl⟩
  all_goals exact ⟨rfl, rfl, BitVec.eq_of_toNat_eq (Eq.symm ‹_›)⟩

theorem isRow_decodeCmd (c : Byte) : IsRow .cmd c (decodeCmd c) := by
  unfold decodeCmd
  split_ifs with h1 h2 h3 h4 h5 h6
  case neg => exact ⟨(wellFormed_cmdReserved_iff c).mpr ⟨h1, h2, h3, h4, h5, h6⟩, rfl, rfl⟩
  all_goals subst c; exact ⟨rfl, rfl, rfl⟩

/-- No byte is without a row (R81). -/
theorem isRow_decodeByte (f : Format) (b : Byte) : IsRow f b (decodeByte f b) := by
  cases f with
  | ad => exact isRow_decodeAd b
  | frame => exact isRow_decodeFrame b
  | scheme => exact isRow_decodeScheme b
  | sym => exact isRow_decodeSym b
  | cmd => exact isRow_decodeCmd b

/-! ### The row is the only one -/

theorem decodeAd_of_wellFormed {t : Byte} (h : wellFormed (.adSkip t) = true) : decodeAd t = .adSkip t := by
  obtain ⟨h1, h2, h3⟩ := (wellFormed_adSkip_iff t).mp h
  rw [decodeAd, if_neg h1, if_neg h2, if_neg h3]

theorem decodeFrame_of_wellFormed {ft : Byte} (h : wellFormed (.frameInvalid ft) = true) :
    decodeFrame ft = .frameInvalid ft := by
  obtain ⟨h1, h2, h3⟩ := (wellFormed_frameInvalid_iff ft).mp h
  rw [decodeFrame, if_neg h1, if_neg h2, if_neg h3]

theorem decodeScheme_of_wellFormed {s : Byte} (h : wellFormed (.urlPfxinvalid s) = true) :
    decodeScheme s = .urlPfxinvalid s := by
  obtain ⟨h0, h1, h2, h3⟩ := (wellFormed_urlPfxinvalid_iff s).mp h
  rw [decodeScheme, if_neg h0, if_neg h1, if_neg h2, if_neg h3]

theorem decodeSym_of_wellFormed {c : Byte} (h : wellFormed (.urlLit c) = true) : decodeSym c = .urlLit c := by
  have hlit : 14 ≤ c.toNat := (wellFormed_urlLit_iff c).mp h
  unfold decodeSym
  split
  case h_15 => rfl
  all_goals omega

theorem decodeCmd_of_wellFormed {c : Byte} (h : wellFormed (.cmdReserved c) = true) :
    decodeCmd c = .cmdReserved c := by
  obtain ⟨h1, h2, h3, h4, h5, h6⟩ := (wellFormed_cmdReserved_iff c).mp h
  rw [decodeCmd, if_neg h1, if_neg h2, if_neg h3, if_neg h4, if_neg h5, if_neg h6]

/-- The maps read back what the encoder writes. A named row is its own test; a default row is what is left when every
test before it fails. -/
theorem decodeByte_encodeByte {i : Instr} (h : wellFormed i = true) : decodeByte (formatOf i) (encodeByte i) = i := by
  cases i with
  | adSkip t => exact decodeAd_of_wellFormed h
  | frameInvalid ft => exact decodeFrame_of_wellFormed h
  | urlPfxinvalid s => exact decodeScheme_of_wellFormed h
  | urlLit c => exact decodeSym_of_wellFormed h
  | cmdReserved c => exact decodeCmd_of_wellFormed h
  | _ => rfl

/-- A byte has exactly one row in each map, and it is the one the map decodes the byte to. -/
theorem decodeByte_eq_iff_isRow {f : Format} {b : Byte} {i : Instr} : decodeByte f b = i ↔ IsRow f b i := by
  constructor
  · rintro rfl
    exact isRow_decodeByte f b
  · rintro ⟨hwf, rfl, rfl⟩
    exact decodeByte_encodeByte hwf

/-! ### The statements -/

/-- Settles O1: one byte at the head, and the maps read back what the encoder writes. -/
theorem encodeThenDecodeGivesTheInstruction : Obligations.EncodeThenDecodeGivesTheInstruction := by
  intro i rest hwf
  simp only [encode, List.singleton_append, decode, decodeByte_encodeByte hwf]

/-- Settles O2: the row of a byte is the one its map decodes it to. -/
theorem everyByteHasOneRowInEveryMap : Obligations.EveryByteHasOneRowInEveryMap := by
  refine ⟨fun f b rest => ?_, fun _ => rfl⟩
  obtain ⟨hwf, hformat, hbyte⟩ := isRow_decodeByte f b
  exact ⟨decodeByte f b, rfl, hwf, hformat, congrArg ([·]) hbyte⟩

/-- Settles O3: each instruction named is a row of its map for the byte. -/
theorem wordsOfTheCodeMapsDecode : Obligations.WordsOfTheCodeMapsDecode := by
  refine ⟨?_, ?_, ?_, ?_, ?_, ?_, ?_, ?_, ?_, ?_⟩ <;> exact decodeByte_eq_iff_isRow.mpr ⟨rfl, rfl, rfl⟩

end Sys2Proof
end

