-- ==== Sys2Proof/Proofs/Numbers.lean ====
section
/-! The numbers assembled from bytes (30_encoding.md R71 to R73), as arithmetic on the bytes. -/

namespace Sys2Proof.Machine

/-- A byte appended below a number. -/
theorem toNat_append_byte {n : Nat} (x : BitVec n) (b : Byte) : (x ++ b).toNat = 256 * x.toNat + b.toNat := by
  rw [BitVec.toNat_append, ← Nat.shiftLeft_add_eq_or_of_lt b.isLt, Nat.shiftLeft_eq, mul_comm]

theorem le16_toNat (a b : Byte) : (le16 a b).toNat = a.toNat + 256 * b.toNat := by
  rw [le16, toNat_append_byte, add_comm]

theorem be16_toNat (a b : Byte) : (be16 a b).toNat = 256 * a.toNat + b.toNat :=
  toNat_append_byte a b

theorem be32_toNat (a b c d : Byte) :
    (be32 a b c d).toNat = 2 ^ 24 * a.toNat + 2 ^ 16 * b.toNat + 2 ^ 8 * c.toNat + d.toNat := by
  rw [be32, toNat_append_byte, toNat_append_byte, toNat_append_byte]
  omega

/-- `s8` is the two's-complement reading (R73, log 10). -/
theorem s8_eq_toInt (a : Byte) : s8 a = a.toInt := by
  rw [s8, BitVec.toInt_eq_toNat_cond]
  split <;> split <;> omega

/-- Settles O49. -/
theorem numbersFromBytes : Obligations.NumbersFromBytes :=
  ⟨fun a b => ⟨le16_toNat a b, be16_toNat a b⟩, rfl, be32_toNat, s8_eq_toInt⟩

end Sys2Proof.Machine
end

