-- ==== Sys2Proof/Proofs/AdScanner.lean ====
section
/-! The AD structure rows run on their own (41_ad_scanner.md R101 to R109), and the units of a command as runs of the
decoded rows. -/

namespace Sys2Proof.Machine

/-! ### A row of the AD and frame maps on its own -/

/-- An AD row run on its own ends as the row that the scan loop dispatches to (R101 step 6). -/
theorem exec_adRow {i : Instr} (hi : formatOf i = .ad) (s : State) : exec i s = finishRow s (runAdRow i s) := by
  cases i with
  | adFlags | adUuid16 | adSvcdata16 | adSkip => rfl
  | _ => cases hi

/-- A frame row run on its own ends as the row that the frame dispatcher selects (R120). -/
theorem exec_frameRow {i : Instr} (hi : formatOf i = .frame) (s : State) :
    exec i s = finishRow s (runFrameRow i s) := by
  cases i with
  | frameUid | frameUrl | frameTlm | frameInvalid => rfl
  | _ => cases hi

theorem formatOf_decodeByte (f : Format) (b : Byte) : formatOf (decodeByte f b) = f :=
  (isRow_decodeByte f b).2.1

/-! ### The checks before the row (R101 steps 1, 3, 4) -/

/-- The three checks, in their order. -/
theorem adStructure_eq (s : State) :
    adStructure s = if s.cursor < s.len then
        if s.inByte s.cursor = 0 then raise .notABeaconAdvertisement
        else if s.nextStructure ≤ s.len then .ok (s.inByte s.cursor).toNat
        else raise .boundsViolation
      else raise .notABeaconAdvertisement := by
  have hpos : 0 < (s.inByte s.cursor).toNat ↔ s.inByte s.cursor ≠ 0 := by
    rw [ne_eq, ← BitVec.toNat_inj]
    exact Nat.pos_iff_ne_zero
  simp only [adStructure, require_bind_eq, decide_eq_true_eq, hpos, ite_not, State.nextStructure]
  rfl

/-- Every AD row makes the checks first, and ends with the error of the one that fails. -/
theorem exec_adRow_of_adStructure_raise {i : Instr} (hi : formatOf i = .ad) {s : State} {e : ErrorKind}
    (h : adStructure s = raise e) : exec i s = .next (s.takeError e) := by
  have hrow : runAdRow i s = raise e := by
    cases i with
    | adFlags => simp only [runAdRow, adFlags, h]; rfl
    | adUuid16 => simp only [runAdRow, adUuid16, h]; rfl
    | adSvcdata16 => simp only [runAdRow, adSvcdata16, h]; rfl
    | adSkip t => simp only [runAdRow, adSkip, h]; rfl
    | _ => cases hi
  rw [exec_adRow hi, hrow]
  rfl

/-! ### A structure that fits -/

theorem exec_adSkip_of_fits {s : State} (h : s.structureFits) (t : Byte) :
    exec (.adSkip t) s = .next (s.scanned (s.blk.header, s.nextStructure)) :=
  congrArg (finishRow s) (adSkip_of_fits h t)

/-- The next offset is a value that `POS` holds. -/
theorem State.structureFits.toNat_nextStructure {s : State} (h : s.structureFits) :
    (BitVec.ofNat 5 s.nextStructure).toNat = s.nextStructure := by
  have hnext := h.nextStructure_bounds.2
  have hlen := s.len_le
  exact Nat.mod_eq_of_lt (by omega)

/-! ### The units and the rows -/

/-- The one row that ends the scan is that of the type byte 0x16 (R105). -/
theorem decodeAd_eq_adSvcdata16_iff {t : Byte} : decodeAd t = .adSvcdata16 ↔ t = 0x16 := by
  have hrow : decodeAd t = .adSvcdata16 ↔ IsRow .ad t .adSvcdata16 := decodeByte_eq_iff_isRow (f := .ad)
  rw [hrow, eq_comm (a := t)]
  simp [IsRow, wellFormed, formatOf, encodeByte]

/-- The URL decoder on an empty body is the row of the scheme byte (R142). -/
theorem runUrl_nil (b : Byte) (s : State) : runUrl b [] s = runUrlRow (decodeByte .scheme b) s := by
  rw [runUrl]
  cases runUrlRow (decodeByte .scheme b) s <;> rfl

/-- A symbol row that answers a next state has appended its text: it raises no error of the block (R146). -/
theorem runUrlRow_of_exec_sym {b : Byte} {s t : State} (h : exec (decodeByte .sym b) s = .next t) :
    runUrlRow (decodeByte .sym b) s = .ok t := by
  rw [exec_sym] at h
  rw [runUrlRow_sym]
  obtain hok | ⟨e, herr, -⟩ := finishRow_next h
  · exact hok
  · cases (emit_error herr).1

/-! ### The statements -/

/-- Settles O26: past the checks each row is its reads and its own checks, which all pass here. -/
theorem adRowsHaveTheirEffect : Obligations.AdRowsHaveTheirEffect := by
  intro s hfit
  obtain ⟨hmin, hmax⟩ := hfit.nextStructure_bounds
  refine ⟨fun h2 => ?flags, fun h3 hu => ?uuid16, fun h4 hu hft => ?svcdata16, exec_adSkip_of_fits hfit,
    hfit.toNat_nextStructure, hmin, hmax⟩
  case flags =>
    rw [exec_adRow rfl, runAdRow, adFlags_of_fits hfit, if_pos h2]
    rfl
  case uuid16 =>
    rw [exec_adRow rfl, runAdRow, adUuid16_of_fits hfit, if_pos h3, if_pos hu, hu]
    rfl
  case svcdata16 =>
    rw [exec_adRow rfl, runAdRow, adSvcdata16_of_fits hfit, if_pos h4, if_pos hu, if_pos hft, hu]
    rfl

/-- Settles O27: the checks of `adStructure_eq` before the row, then those of the row itself. -/
theorem adRowsRaiseInOrder : Obligations.AdRowsRaiseInOrder := by
  intro s
  refine ⟨fun i hi => ⟨fun hend => ?_, fun hlt h0 => ?_, fun hlt hne hlong => ?_⟩, fun hfit =>
    ⟨fun h2 => ?_, fun h3 => ?_, fun h3 hu => ?_, fun h4 => ?_, fun h4 hu => ?_, fun h4 hu hft => ?_⟩⟩
  · exact exec_adRow_of_adStructure_raise hi (by rw [adStructure_eq, if_neg hend.not_gt])
  · exact exec_adRow_of_adStructure_raise hi (by rw [adStructure_eq, if_pos hlt, if_pos h0])
  · exact exec_adRow_of_adStructure_raise hi
      (by rw [adStructure_eq, if_pos hlt, if_neg hne, if_neg hlong.not_ge])
  · rw [exec_adRow rfl, runAdRow, adFlags_of_fits hfit, if_neg h2.not_gt]
    rfl
  · rw [exec_adRow rfl, runAdRow, adUuid16_of_fits hfit, if_neg h3.not_gt]
    rfl
  · rw [exec_adRow rfl, runAdRow, adUuid16_of_fits hfit, if_pos h3, if_neg hu]
    rfl
  · rw [exec_adRow rfl, runAdRow, adSvcdata16_of_fits hfit, if_neg h4.not_gt]
    rfl
  · rw [exec_adRow rfl, runAdRow, adSvcdata16_of_fits hfit, if_pos h4, if_neg hu]
    rfl
  · rw [exec_adRow rfl, runAdRow, adSvcdata16_of_fits hfit, if_pos h4, if_pos hu, if_neg (Bool.eq_false_iff.mp hft)]
    rfl

/-- Settles O28: exec of a row is the row that its unit dispatches to, and each unit's run begins with that row. -/
theorem unitsRunTheDecodedRows : Obligations.UnitsRunTheDecodedRows := by
  refine ⟨fun n s t hfit hrow => ⟨?_, ?_⟩, fun n s e hfit hrow => ⟨?_, ?_⟩, fun ft s => ?_, fun b s => ?_,
    fun b rest s t h => ?_⟩
  · rw [exec_adRow (formatOf_decodeByte .ad s.adType), hrow]
    rfl
  · rw [decodeByte] at hrow
    rw [scanLoop_succ_of_fits hfit, hrow]
    simp only [decodeAd_eq_adSvcdata16_iff]
    rfl
  · rw [exec_adRow (formatOf_decodeByte .ad s.adType), hrow]
    rfl
  · rw [decodeByte] at hrow
    rw [scanLoop_succ_of_fits hfit, hrow]
    rfl
  · exact exec_frameRow (formatOf_decodeByte .frame ft) s
  · rw [exec_urlRow (.inl (formatOf_decodeByte .scheme b)), runUrl_nil]
  · rw [emitBody, runUrlRow_of_exec_sym h]
    rfl

end Sys2Proof.Machine
end

