-- ==== Sys2Proof/Proofs/FrameRows.lean ====
section
/-! The frame rows run on their own (42_frame_decoder.md R120 to R127): each is one equation with the variant it fills
and the errors it raises. The temperature of a TLM result (R126). The two default rows that only raise. -/

namespace Sys2Proof.Machine

/-! ### Slices of a payload in a bank -/

theorem byteAt_eq_zero {bytes : List Byte} {k : Nat} (h : bytes.length ≤ k) : byteAt bytes k = 0 :=
  List.getD_eq_default bytes 0 h

theorem byteAt_drop (bytes : List Byte) (i k : Nat) : byteAt (bytes.drop i) k = byteAt bytes (i + k) := by
  simp [byteAt, List.getD_eq_getElem?_getD]

theorem byteAt_take (bytes : List Byte) (n k : Nat) :
    byteAt (bytes.take n) k = if k < n then byteAt bytes k else 0 := by
  split
  next hk => simp [byteAt, List.getD_eq_getElem?_getD, hk]
  next hk => exact byteAt_eq_zero ((List.length_take_le n bytes).trans (Nat.le_of_not_lt hk))

/-- A bank written whole reads as the byte string, and 0 above it. -/
theorem Memory.read_writeBytes_nil (bytes : List Byte) (k : Nat) :
    (Memory.writeBytes [] 0 bytes).read k = byteAt bytes k := by
  rw [Memory.read_writeBytes rfl, Nat.zero_add, Nat.sub_zero]
  split
  · rfl
  · exact (byteAt_eq_zero (by omega)).symm

/-- A bank written whole with the `n` bytes of a payload from `i` on. -/
theorem Memory.read_writeBytes_slice (p : List Byte) (i n k : Nat) :
    (Memory.writeBytes [] 0 ((p.drop i).take n)).read k = if k < n then byteAt p (i + k) else 0 := by
  rw [Memory.read_writeBytes_nil, byteAt_take, byteAt_drop]

/-! ### What each row does with its payload -/

/-- The result registers after a UID payload (R122), the other variants' registers as they were. -/
def FrameResult.withUid (r : FrameResult) (p : List Byte) : FrameResult :=
  { r with
    kind := 1
    txpower := byteAt p 0
    nspace := Memory.writeBytes [] 0 ((p.drop 1).take 10)
    inst := Memory.writeBytes [] 0 ((p.drop 11).take 6)
    rsvdPresent := if p.length = 19 then 1 else 0
    rsvd := Memory.writeBytes [] 0 (p.drop 17) }

/-- The result registers after a URL payload (R123, R124), the other variants' registers as they were. -/
def FrameResult.withUrl (r : FrameResult) (p : List Byte) : FrameResult :=
  { r with
    kind := 2
    txpower := byteAt p 0
    url := Memory.writeBytes [] 0 (urlDecode (byteAt p 1).toNat (p.drop 2))
    urlLen := BitVec.ofNat 7 (urlDecode (byteAt p 1).toNat (p.drop 2)).length }

/-- The result registers after a TLM payload (R125), the other variants' registers as they were. -/
def FrameResult.withTlm (r : FrameResult) (p : List Byte) : FrameResult :=
  { r with
    kind := 3
    version := byteAt p 0
    vbatt := be16 (byteAt p 1) (byteAt p 2)
    tempInt := byteAt p 3
    tempFrac := byteAt p 4
    advCount := be32 (byteAt p 5) (byteAt p 6) (byteAt p 7) (byteAt p 8)
    time := be32 (byteAt p 9) (byteAt p 10) (byteAt p 11) (byteAt p 12) }

theorem presence_uidLenLong (m : Nat) : presence (m == Config.uidLenLong) = if m = 19 then 1 else 0 := by
  by_cases h : m = 19
  · rw [if_pos h, h]
    rfl
  · rw [if_neg h, beq_eq_false_iff_ne.mpr (show m ≠ Config.uidLenLong from h)]
    rfl

theorem exec_frameUid (s : State) :
    exec .frameUid s = .next (if s.payload.length = 17 ∨ s.payload.length = 19 then
      s.setResult (s.blk.result.withUid s.payload) else s.takeError .lengthMismatch) := by
  have hrow : frameUid s = if s.payload.length = 17 ∨ s.payload.length = 19 then
      .ok (s.setResult (s.blk.result.withUid s.payload)) else raise .lengthMismatch := by
    simp only [frameUid, require_bind_eq, Bool.or_eq_true, beq_iff_eq, presence_uidLenLong]
    rfl
  rw [exec_frameRow rfl, runFrameRow, hrow]
  split <;> rfl

/-- The length is tested first, then the scheme byte (R123). -/
theorem exec_frameUrl (s : State) :
    exec .frameUrl s = .next (if 2 ≤ s.payload.length ∧ s.payload.length ≤ 18 then
      if (byteAt s.payload 1).toNat ≤ 3 then s.setResult (s.blk.result.withUrl s.payload)
      else s.takeError .invalidScheme
    else s.takeError .lengthMismatch) := by
  have hlow : Config.urlPayloadMin ≤ s.payload.length ↔ 2 ≤ s.payload.length := Iff.rfl
  have hhigh : s.payload.length - 1 ≤ Config.urlEncMax ↔ s.payload.length ≤ 18 := Nat.sub_le_iff_le_add
  rw [exec_frameRow rfl, runFrameRow]
  simp only [frameUrl, require_bind_eq, decide_eq_true_eq, hlow, hhigh, ite_and]
  split_ifs with hmin hmax hscheme
  · rw [runUrl_eq_urlDecode _ (by simp; omega), if_pos hscheme]
    rfl
  · rw [runUrl_eq_urlDecode _ (by simp; omega), if_neg hscheme]
    rfl
  · rfl
  · rfl

theorem exec_frameTlm (s : State) :
    exec .frameTlm s = .next (if s.payload.length = 13 ∨ s.payload.length = 14 then
      s.setResult (s.blk.result.withTlm s.payload) else s.takeError .lengthMismatch) := by
  have hlen : s.payload.length = 13 ∨ s.payload.length = 14 ↔
      s.payload.length ≤ Config.tlmLenMax ∧ Config.tlmLenMin ≤ s.payload.length := by
    simp only [Config.tlmLenMax, Config.tlmLenMin]
    omega
  rw [exec_frameRow rfl, runFrameRow]
  simp only [frameTlm, require_bind_eq, decide_eq_true_eq, hlen, ite_and]
  split_ifs <;> rfl

/-- `R_RSVD` after a UID payload: the pair, or 0, 0 without it (R21, log 8). -/
theorem FrameResult.withUid_rsvd_read (r : FrameResult) {p : List Byte} (h : p.length = 17 ∨ p.length = 19)
    (k : Nat) : (r.withUid p).rsvd.read k = if k < 2 ∧ p.length = 19 then byteAt p (17 + k) else 0 := by
  have hread : (r.withUid p).rsvd.read k = byteAt p (17 + k) := by
    rw [← byteAt_drop]
    exact Memory.read_writeBytes_nil (p.drop 17) k
  rw [hread]
  split
  · rfl
  · exact byteAt_eq_zero (by omega)

/-- `R_URL_LEN` holds the length of every text that a payload of at most 18 bytes gives (R148). -/
theorem FrameResult.withUrl_urlLen (r : FrameResult) {p : List Byte} (hlen : p.length ≤ 18)
    (hscheme : (byteAt p 1).toNat ≤ 3) :
    (r.withUrl p).urlLen.toNat = (urlDecode (byteAt p 1).toNat (p.drop 2)).length := by
  have hbody : (p.drop 2).length ≤ 16 := by
    rw [List.length_drop]
    omega
  have htext := (urlDecode_length_bounds hscheme hbody).2
  exact Nat.mod_eq_of_lt (by omega)

/-- Settles O29, from the equation of each row at an accepted length. -/
theorem frameRowsFillTheirVariant : Obligations.FrameRowsFillTheirVariant := by
  rintro s p rfl
  refine ⟨fun hlen => ?uid, fun hmin hmax hscheme => ?url, fun hlen => ?tlm⟩
  case uid =>
    refine ⟨s.setResult (s.blk.result.withUid s.payload), ?_, rfl, rfl, rfl,
      Memory.read_writeBytes_slice s.payload 1 10, Memory.read_writeBytes_slice s.payload 11 6,
      s.blk.result.withUid_rsvd_read hlen⟩
    rw [exec_frameUid, if_pos hlen]
  case url =>
    refine ⟨s.setResult (s.blk.result.withUrl s.payload), ?_, rfl, rfl, rfl,
      s.blk.result.withUrl_urlLen hmax hscheme, Memory.read_writeBytes_nil _⟩
    rw [exec_frameUrl, if_pos ⟨hmin, hmax⟩, if_pos hscheme]
  case tlm =>
    rw [exec_frameTlm, if_pos hlen]
    rfl

/-- Settles O30, from the equation of each row. -/
theorem frameRowsRaiseInOrder : Obligations.FrameRowsRaiseInOrder := by
  rintro s m rfl
  refine ⟨fun h17 h19 => ?_, fun hlen => ?_, fun hmin hmax hscheme => ?_, fun hlen => ?_⟩
  · rw [exec_frameUid, if_neg (not_or.mpr ⟨h17, h19⟩)]
  · rw [exec_frameUrl, if_neg (by omega)]
  · rw [exec_frameUrl, if_pos ⟨hmin, hmax⟩, if_neg hscheme.not_ge]
  · rw [exec_frameTlm, if_neg (by omega)]

/-! ### The default rows -/

/-- Settles O31: a byte outside the three tags has the default row of the frame map. -/
theorem invalidFrameTypeRaises : Obligations.InvalidFrameTypeRaises := by
  refine ⟨fun _ _ => rfl, fun ft s h0 h1 h2 => ?_⟩
  rw [decodeByte, decodeFrame_of_wellFormed ((wellFormed_frameInvalid_iff ft).mpr ⟨h0, h1, h2⟩)]
  rfl

/-- Settles O32: the row of a scheme byte above 3 raises, `runUrlRow_scheme`. -/
theorem invalidSchemeRaises : Obligations.InvalidSchemeRaises := by
  refine ⟨fun _ _ => rfl, fun b s hb => ?_⟩
  rw [exec_urlRow (.inl (formatOf_decodeByte .scheme b)), runUrlRow_scheme, if_neg hb.not_ge]
  rfl

/-! ### The temperature (R74, R126) -/

/-- The two bytes as one two's-complement number. -/
theorem be16_toInt (hi lo : Byte) : (be16 hi lo).toInt = 256 * s8 hi + lo.toNat := by
  rw [BitVec.toInt_eq_toNat_cond, be16_toNat, s8]
  split <;> split <;> omega

theorem temperature_eq_be16 (hi lo : Byte) : temperature hi lo = ((be16 hi lo).toInt : ℚ) / 256 := by
  rw [temperature, be16_toInt]
  push_cast
  ring

/-- The fraction is not negative and stays below 1, so the integer part is the floor. -/
theorem floor_temperature (hi lo : Byte) : ⌊temperature hi lo⌋ = s8 hi := by
  have hlo : (lo.toNat : ℚ) < 256 := by exact_mod_cast lo.isLt
  have hfrac : ⌊(lo.toNat : ℚ) / 256⌋ = 0 :=
    Int.floor_eq_zero_iff.mpr ⟨by positivity, (div_lt_one (by norm_num)).mpr hlo⟩
  rw [temperature, Int.floor_intCast_add, hfrac, add_zero]

/-- Equal temperatures have equal floors, so equal high bytes, and what is left is the low byte. -/
theorem temperature_inj {hi lo hi' lo' : Byte} (h : temperature hi lo = temperature hi' lo') :
    hi = hi' ∧ lo = lo' := by
  have hs8 : s8 hi = s8 hi' := by rw [← floor_temperature hi lo, h, floor_temperature]
  have hfrac : (lo.toNat : ℚ) = lo'.toNat := by
    rw [temperature, temperature, hs8] at h
    linarith
  rw [s8_eq_toInt, s8_eq_toInt] at hs8
  exact ⟨BitVec.toInt_inj.mp hs8, BitVec.eq_of_toNat_eq (Nat.cast_injective hfrac)⟩

/-- Settles O33. -/
theorem temperatureIsExact : Obligations.TemperatureIsExact := by
  refine ⟨fun hi lo => ⟨rfl, temperature_eq_be16 hi lo, floor_temperature hi lo⟩, fun _ _ _ _ => temperature_inj,
    ?half, ?one, fun s hlen => ⟨s.setResult (s.blk.result.withTlm s.payload), ?tlm, rfl⟩⟩
  case half =>
    rw [temperature_eq_be16, show (be16 0xFF 0x80).toInt = -128 from rfl]
    norm_num
  case one =>
    rw [temperature_eq_be16, show (be16 0xFF 0x00).toInt = -256 from rfl]
    norm_num
  case tlm => rw [exec_frameTlm, if_pos hlen]

end Sys2Proof.Machine
end

