-- ==== Sys2Proof/Proofs/UrlTables.lean ====
section
/-! The two read-only tables (43_url_codec.md R140, R141): their shape, and the encoder's search for the longest entry
that a text begins with (R151, R152). -/

namespace Sys2Proof.Machine

/-- Settles O38: the two tables are constants, and every entry is looked at. -/
theorem tablesHaveTheirShape : Obligations.TablesHaveTheirShape := by
  refine ⟨rfl, rfl, ?slash, ?dots⟩
  case slash => decide
  case dots => decide

theorem prefixRom_injective : ∀ i < 4, ∀ j < 4, prefixRom i = prefixRom j → i = j := by decide

theorem suffixRom_injective : ∀ i < 14, ∀ j < 14, suffixRom i = suffixRom j → i = j := by decide

theorem suffixRom_ne_nil : ∀ k < 14, suffixRom k ≠ [] := by decide

/-! ### The longest entry -/

/-- Among the first `n` entries of a table without repetitions at most one is the longest that a text begins with: two
of one length are the same piece of the text. -/
theorem longestEntry_unique {rom : Nat → List Byte} {n i j : Nat} {text : List Byte}
    (hinj : ∀ i < n, ∀ j < n, rom i = rom j → i = j)
    (hi : i < n ∧ rom i <+: text ∧ ∀ j < n, rom j <+: text → (rom j).length ≤ (rom i).length)
    (hj : j < n ∧ rom j <+: text ∧ ∀ i < n, rom i <+: text → (rom i).length ≤ (rom j).length) : i = j := by
  obtain ⟨hin, hit, himax⟩ := hi
  obtain ⟨hjn, hjt, hjmax⟩ := hj
  have hpre : rom i <+: rom j := List.prefix_of_prefix_length_le hit hjt (hjmax i hin hit)
  exact hinj i hin j hjn (hpre.eq_of_length_le (himax j hjn hjt))

/-- A search through entries of falling length finds the longest match. -/
theorem find?_max_of_pairwise {l : List Nat} {p : Nat → Bool} {len : Nat → Nat} {k : Nat}
    (hl : l.Pairwise fun i j => len j ≤ len i) (hk : l.find? p = some k) :
    ∀ j ∈ l, p j = true → len j ≤ len k := by
  obtain ⟨-, before, after, rfl, hbefore⟩ := List.find?_eq_some_iff_append.mp hk
  obtain ⟨hafter, -⟩ := List.pairwise_cons.mp (List.pairwise_append.mp hl).2.1
  intro j hj hpj
  obtain hj | hj := List.mem_append.mp hj
  · exact absurd hpj (by simpa using hbefore j hj)
  · obtain rfl | hj := List.mem_cons.mp hj
    · exact le_rfl
    · exact hafter j hj

theorem mem_prefixOrder_iff {k : Nat} : k ∈ prefixOrder ↔ k < 4 := by
  simp only [prefixOrder, List.mem_cons, List.not_mem_nil, or_false]
  omega

theorem longestPrefix_eq_none_iff {text : List Byte} :
    longestPrefix text = none ↔ ∀ k < 4, ¬ prefixRom k <+: text := by
  simp only [longestPrefix, List.find?_eq_none, matchesAt_iff, mem_prefixOrder_iff]

/-- The order in which the entries are tried is by falling length (R151). -/
theorem beginsWithPrefix_of_longestPrefix {text : List Byte} {k : Nat} (h : longestPrefix text = some k) :
    beginsWithPrefix k text := by
  have horder : prefixOrder.Pairwise fun i j => (prefixRom j).length ≤ (prefixRom i).length := by decide
  have hmatch := List.find?_some (p := fun k => matchesAt (prefixRom k) text) h
  have hmax := find?_max_of_pairwise horder h
  simp only [mem_prefixOrder_iff, matchesAt_iff] at hmax
  exact ⟨mem_prefixOrder_iff.mp (List.mem_of_find?_eq_some h), (matchesAt_iff _ _).mp hmatch, hmax⟩

theorem longestPrefix_eq_some_iff {text : List Byte} {k : Nat} :
    longestPrefix text = some k ↔ beginsWithPrefix k text := by
  refine ⟨beginsWithPrefix_of_longestPrefix, fun hk => ?_⟩
  cases hj : longestPrefix text with
  | none => exact absurd hk.2.1 (longestPrefix_eq_none_iff.mp hj k hk.1)
  | some j =>
    rw [longestEntry_unique prefixRom_injective hk (beginsWithPrefix_of_longestPrefix hj)]

/-- What the search for the longest suffix has found among the entries below `n` (R152). -/
def BestSuffixBelow (n : Nat) (rest : List Byte) : Option Nat → Prop
  | none => ∀ j < n, ¬ suffixRom j <+: rest
  | some k => k < n ∧ suffixRom k <+: rest ∧
      ∀ j < n, suffixRom j <+: rest → (suffixRom j).length ≤ (suffixRom k).length

/-- One more candidate: it is the best so far if it matches and is longer, or if none matched before it. -/
theorem BestSuffixBelow.succ {n : Nat} {rest : List Byte} {best : Option Nat}
    (h : BestSuffixBelow n rest best) : BestSuffixBelow (n + 1) rest (betterSuffix rest best n) := by
  simp only [betterSuffix, matchesAt_iff]
  split
  next hn =>
    cases best with
    | none =>
      exact ⟨n.lt_succ_self, hn, Nat.forall_lt_succ_right.mpr ⟨fun j hj hjt => absurd hjt (h j hj), fun _ => le_rfl⟩⟩
    | some k =>
      obtain ⟨hkn, hkt, hkmax⟩ := h
      simp only
      split
      next hlonger =>
        exact ⟨n.lt_succ_self, hn,
          Nat.forall_lt_succ_right.mpr ⟨fun j hj hjt => (hkmax j hj hjt).trans hlonger.le, fun _ => le_rfl⟩⟩
      next hshorter =>
        exact ⟨hkn.trans n.lt_succ_self, hkt,
          Nat.forall_lt_succ_right.mpr ⟨hkmax, fun _ => Nat.le_of_not_lt hshorter⟩⟩
  next hn =>
    cases best with
    | none => exact Nat.forall_lt_succ_right.mpr ⟨h, hn⟩
    | some k =>
      obtain ⟨hkn, hkt, hkmax⟩ := h
      exact ⟨hkn.trans n.lt_succ_self, hkt, Nat.forall_lt_succ_right.mpr ⟨hkmax, fun hnt => absurd hnt hn⟩⟩

theorem bestSuffixBelow_foldl (n : Nat) (rest : List Byte) :
    BestSuffixBelow n rest ((List.range n).foldl (betterSuffix rest) none) := by
  induction n with
  | zero => exact fun j hj => absurd hj j.not_lt_zero
  | succ n ih =>
    rw [List.range_succ, List.foldl_append]
    exact ih.succ

theorem longestSuffix_best (rest : List Byte) : BestSuffixBelow 14 rest (longestSuffix rest) :=
  bestSuffixBelow_foldl 14 rest

theorem longestSuffix_eq_some_iff {rest : List Byte} {k : Nat} :
    longestSuffix rest = some k ↔ beginsWithSuffix k rest := by
  have hbest := longestSuffix_best rest
  cases hj : longestSuffix rest with
  | none =>
    rw [hj] at hbest
    exact ⟨nofun, fun hk => absurd hk.2.1 (hbest k hk.1)⟩
  | some j =>
    rw [hj] at hbest
    refine ⟨fun h => ?_, fun hk => congrArg some (longestEntry_unique suffixRom_injective hbest hk)⟩
    cases h
    exact hbest

theorem longestSuffix_eq_none_iff {rest : List Byte} : longestSuffix rest = none ↔ beginsWithNoSuffix rest := by
  have hbest := longestSuffix_best rest
  cases hj : longestSuffix rest with
  | none =>
    rw [hj] at hbest
    exact ⟨fun _ => hbest, fun _ => rfl⟩
  | some j =>
    rw [hj] at hbest
    exact ⟨nofun, fun h => absurd hbest.2.1 (h j hbest.1)⟩

/-- Settles O41. -/
theorem encoderMatchesLongest : Obligations.EncoderMatchesLongest :=
  ⟨fun _ _ => longestPrefix_eq_some_iff, fun _ _ => longestSuffix_eq_some_iff⟩

end Sys2Proof.Machine
end

