-- ==== Sys2Proof/Proofs/UrlRows.lean ====
section
/-! The scheme and symbol rows run on their own (43_url_codec.md R143 to R145), where their text fits. -/

namespace Sys2Proof.Machine

/-- A row that a table lists with a code is the row of that byte in its map. -/
theorem row_of_mem {f : Format} {n : Nat} {rows : List (Instr × Nat)}
    (hrows : ∀ row ∈ rows, row.1 = decodeByte f (BitVec.ofNat 8 row.2) ∧ row.2 < n) {i : Instr} {k : Nat}
    (h : (i, k) ∈ rows) : i = decodeByte f (BitVec.ofNat 8 k) ∧ k < n :=
  hrows _ h

theorem toNat_code {k : Nat} (hk : k < 14) : (BitVec.ofNat 8 k).toNat = k :=
  Nat.mod_eq_of_lt (by omega)

/-! ### The scheme rows -/

/-- A scheme row run on its own begins the text, or raises (R143, R123). -/
theorem exec_scheme (b : Byte) (s : State) :
    exec (decodeByte .scheme b) s =
      finishRow s (if b.toNat ≤ 3 then .ok (s.putText (prefixRom b.toNat)) else raise .invalidScheme) := by
  rw [exec_urlRow (.inl (formatOf_decodeByte .scheme b)), runUrlRow_scheme]

/-- Settles O35: the four rows are those of the scheme bytes 0 to 3. -/
theorem schemeRowsBeginTheText : Obligations.SchemeRowsBeginTheText := by
  intro i k hrow s
  obtain ⟨hi, hk⟩ := row_of_mem (f := .scheme) (n := 4) (by decide) hrow
  refine ⟨s.putText (prefixRom k), ?_, rfl, rfl, rfl, Memory.read_writeBytes_nil _⟩
  rw [hi, exec_scheme, toNat_code (by omega), if_pos (by omega)]
  rfl

/-! ### The symbol rows -/

theorem symbolText_suffixCode {k : Nat} (hk : k < 14) : symbolText (BitVec.ofNat 8 k) = suffixRom k := by
  rw [symbolText, toNat_code hk, if_pos hk]

/-- An append that fits writes its characters at the cursor, raises the cursor by their number and leaves everything
else, every other byte of `R_URL` included (R146). -/
theorem finishRow_emit_textAppended {s : State} (hwf : s.blk.result.url.wf = true) {chars : List Byte}
    (hfit : s.urlCursor + chars.length ≤ 108) :
    ∃ t, finishRow s (emit chars s) = .next t ∧ textAppended s t chars := by
  have hemit := emit_ok_iff.mpr ⟨hfit, rfl⟩
  refine ⟨_, congrArg (finishRow s) hemit, rfl, rfl, rfl, emit_urlCursor hemit, ?_⟩
  exact Memory.read_writeBytes hwf s.urlCursor chars

/-- Settles O36: the suffix rows are those of the bytes 0 to 13. -/
theorem symbolRowsAppendTheirText : Obligations.SymbolRowsAppendTheirText := by
  intro s hwf
  constructor
  · intro i k hrow hfit
    obtain ⟨hi, hk⟩ := row_of_mem (f := .sym) (n := 14) (by decide) hrow
    rw [hi, exec_sym, symbolText_suffixCode hk]
    exact finishRow_emit_textAppended hwf hfit
  · intro c hfit
    rw [exec_urlLit]
    exact finishRow_emit_textAppended hwf hfit

end Sys2Proof.Machine
end

