-- ==== Sys2Proof/Proofs/UrlText.lean ====
section
/-! The decoded text (43_url_codec.md R147, R148): its characters and its length. -/

namespace Sys2Proof.Machine

theorem prefixRom_printable : ∀ k ≤ 3, ∀ c ∈ prefixRom k, 0x2E ≤ c.toNat ∧ c.toNat ≤ 0x7A := by decide

theorem suffixRom_printable : ∀ k < 14, ∀ c ∈ suffixRom k, 0x2E ≤ c.toNat ∧ c.toNat ≤ 0x7A := by decide

/-- Settles O39: a character comes from the scheme's string or from one body byte, a suffix code or a literal. -/
theorem decodedTextHasNoCharacterBelow14 : Obligations.DecodedTextHasNoCharacterBelow14 := by
  intro s body hs c hc
  obtain hpfx | hbody := List.mem_append.mp hc
  · have hrange := prefixRom_printable s hs c hpfx
    exact ⟨by omega, .inl ⟨.inl hpfx, hrange⟩⟩
  · obtain ⟨b, hb, hcb⟩ := List.mem_flatMap.mp hbody
    by_cases hcode : b.toNat < 14
    · rw [symbolText, if_pos hcode] at hcb
      have hrange := suffixRom_printable _ hcode c hcb
      exact ⟨by omega, .inl ⟨.inr ⟨b, hb, hcode, hcb⟩, hrange⟩⟩
    · rw [symbolText, if_neg hcode, List.mem_singleton] at hcb
      rw [hcb]
      exact ⟨Nat.le_of_not_lt hcode, .inr ⟨hb, Nat.le_of_not_lt hcode⟩⟩

theorem suffixRom_length_bounds : ∀ k < 14, 4 ≤ (suffixRom k).length ∧ (suffixRom k).length ≤ 6 := by decide

theorem symbolText_length (b : Byte) :
    if b.toNat < 14 then 4 ≤ (symbolText b).length ∧ (symbolText b).length ≤ 6 else (symbolText b).length = 1 := by
  rw [symbolText]
  split
  next hcode => exact suffixRom_length_bounds _ hcode
  next => rfl

/-- Settles O40: the bounds are `urlDecode_length_bounds`, and both ends are attained. -/
theorem decodedTextLength : Obligations.DecodedTextLength := by
  intro s body hs
  refine ⟨?sum, symbolText_length, urlDecode_length_bounds hs, rfl, rfl⟩
  case sum => rw [urlDecode, List.length_append, List.length_flatMap]

end Sys2Proof.Machine
end

