-- ==== Sys2Proof/Proofs/GreedyParse.lean ====
section
/-! The greedy parse of a text (43_url_codec.md R152, R153), one symbol at a time: every text has exactly one, and its
codes decode to the text. -/

namespace Sys2Proof.Machine

/-! ### One symbol -/

/-- The characters a symbol stands for. -/
def UrlSymbol.text : UrlSymbol → List Byte
  | .suffix k => suffixRom k
  | .literal c => [c]

/-- The greedy parse of `text` begins with this symbol (R152, R153). -/
def UrlSymbol.TakenAt : UrlSymbol → List Byte → Prop
  | .suffix k, text => beginsWithSuffix k text
  | .literal c, text => text.head? = some c ∧ beginsWithNoSuffix text

theorem greedyParse_cons (text : List Byte) (sym : UrlSymbol) (syms : List UrlSymbol) :
    greedyParse text (sym :: syms) = true ↔
      sym.TakenAt text ∧ greedyParse (text.drop sym.text.length) syms = true := by
  cases sym with
  | suffix k => exact greedyParse_suffix text k syms
  | literal c =>
    rw [greedyParse_literal, ← List.drop_one, ← and_assoc]
    rfl

theorem UrlSymbol.TakenAt.text_ne_nil {sym : UrlSymbol} {text : List Byte} (h : sym.TakenAt text) :
    sym.text ≠ [] := by
  cases sym with
  | suffix k => exact suffixRom_ne_nil k h.1
  | literal c => exact List.cons_ne_nil c []

theorem UrlSymbol.TakenAt.append_drop {sym : UrlSymbol} {text : List Byte} (h : sym.TakenAt text) :
    sym.text ++ text.drop sym.text.length = text := by
  cases sym with
  | suffix k => exact (List.prefix_append_drop h.2.1).symm
  | literal c =>
    obtain ⟨rest, rfl⟩ := List.head?_eq_some_iff.mp h.1
    rfl

theorem UrlSymbol.TakenAt.ne_nil {sym : UrlSymbol} {text : List Byte} (h : sym.TakenAt text) : text ≠ [] := by
  rintro rfl
  exact h.text_ne_nil (List.append_eq_nil_iff.mp h.append_drop).1

theorem UrlSymbol.TakenAt.drop_length_lt {sym : UrlSymbol} {text : List Byte} (h : sym.TakenAt text) :
    (text.drop sym.text.length).length < text.length := by
  have hsym := List.length_pos_iff.mpr h.text_ne_nil
  have htext := List.length_pos_iff.mpr h.ne_nil
  rw [List.length_drop]
  omega

theorem UrlSymbol.TakenAt.unique {sym sym' : UrlSymbol} {text : List Byte} (h : sym.TakenAt text)
    (h' : sym'.TakenAt text) : sym = sym' := by
  cases sym with
  | suffix k =>
    cases sym' with
    | suffix k' => rw [longestEntry_unique suffixRom_injective h h']
    | literal c' => exact absurd h.2.1 (h'.2 k h.1)
  | literal c =>
    cases sym' with
    | suffix k' => exact absurd h'.2.1 (h.2 k' h'.1)
    | literal c' => rw [Option.some.inj (h.1.symm.trans h'.1)]

theorem exists_takenAt {text : List Byte} (h : text ≠ []) : ∃ sym : UrlSymbol, sym.TakenAt text := by
  cases hs : longestSuffix text with
  | some k => exact ⟨.suffix k, longestSuffix_eq_some_iff.mp hs⟩
  | none =>
    obtain ⟨c, rest, rfl⟩ := List.exists_cons_of_ne_nil h
    exact ⟨.literal c, rfl, longestSuffix_eq_none_iff.mp hs⟩

/-- The code of a symbol with a code of its own decodes to the characters it stands for (R155). -/
theorem UrlSymbol.TakenAt.symbolText_code {sym : UrlSymbol} {text : List Byte} (h : sym.TakenAt text)
    (henc : sym.encodable = true) : symbolText sym.code = sym.text := by
  cases sym with
  | suffix k => exact symbolText_suffixCode h.1
  | literal c => exact if_neg (Nat.not_lt.mpr ((UrlSymbol.encodable_literal c).mp henc))

/-- In a text with no character below 14 every symbol has a code of its own (R147, R153). -/
theorem UrlSymbol.TakenAt.encodable {sym : UrlSymbol} {text : List Byte} (h : sym.TakenAt text)
    (htext : ∀ c ∈ text, 14 ≤ c.toNat) : sym.encodable = true := by
  cases sym with
  | suffix k => rfl
  | literal c => exact (UrlSymbol.encodable_literal c).mpr (htext c (List.mem_of_head? h.1))

/-! ### The whole parse -/

theorem exists_greedyParse (text : List Byte) : ∃ syms, greedyParse text syms = true := by
  by_cases hnil : text = []
  · exact ⟨[], (greedyParse_nil text).mpr hnil⟩
  · obtain ⟨sym, hsym⟩ := exists_takenAt hnil
    obtain ⟨syms, hsyms⟩ := exists_greedyParse (text.drop sym.text.length)
    exact ⟨sym :: syms, (greedyParse_cons text sym syms).mpr ⟨hsym, hsyms⟩⟩
termination_by text.length
decreasing_by exact hsym.drop_length_lt

theorem greedyParse_unique {text : List Byte} {syms syms' : List UrlSymbol} (h : greedyParse text syms = true)
    (h' : greedyParse text syms' = true) : syms = syms' := by
  induction syms generalizing text syms' with
  | nil =>
    cases syms' with
    | nil => rfl
    | cons sym' rest' =>
      exact absurd ((greedyParse_nil text).mp h) ((greedyParse_cons text sym' rest').mp h').1.ne_nil
  | cons sym rest ih =>
    obtain ⟨hsym, hrest⟩ := (greedyParse_cons text sym rest).mp h
    cases syms' with
    | nil => exact absurd ((greedyParse_nil text).mp h') hsym.ne_nil
    | cons sym' rest' =>
      obtain ⟨hsym', hrest'⟩ := (greedyParse_cons text sym' rest').mp h'
      obtain rfl := hsym.unique hsym'
      rw [ih hrest hrest']

/-- Decoding the codes of a greedy parse gives the text back (R155). -/
theorem greedyParse_decode {text : List Byte} {syms : List UrlSymbol} (h : greedyParse text syms = true)
    (henc : syms.all UrlSymbol.encodable = true) : (syms.map UrlSymbol.code).flatMap symbolText = text := by
  induction syms generalizing text with
  | nil => exact ((greedyParse_nil text).mp h).symm
  | cons sym rest ih =>
    obtain ⟨hsym, hrest⟩ := (greedyParse_cons text sym rest).mp h
    rw [List.all_cons, Bool.and_eq_true] at henc
    obtain ⟨hencSym, hencRest⟩ := henc
    rw [List.map_cons, List.flatMap_cons, hsym.symbolText_code hencSym, ih hrest hencRest, hsym.append_drop]

theorem greedyParse_all_encodable {text : List Byte} {syms : List UrlSymbol} (h : greedyParse text syms = true)
    (htext : ∀ c ∈ text, 14 ≤ c.toNat) : syms.all UrlSymbol.encodable = true := by
  induction syms generalizing text with
  | nil => rfl
  | cons sym rest ih =>
    obtain ⟨hsym, hrest⟩ := (greedyParse_cons text sym rest).mp h
    rw [List.all_cons, hsym.encodable htext, Bool.true_and]
    exact ih hrest fun c hc => htext c (List.mem_of_mem_drop hc)

end Sys2Proof.Machine
end

