-- ==== Sys2Proof/Proofs/UrlEncoder.lean ====
section
/-! The encoder on the greedy parse (43_url_codec.md R150 to R156): its loop over the characters is a loop over the
symbols, from which its answers, its errors and the two round trips follow. -/

namespace Sys2Proof.Machine

/-! ### The loop over the symbols -/

/-- The loop of R150 over the symbols of the greedy parse, `o` body bytes written: the checks at each symbol are the
literal below 14, then the 17th byte (R153, R154). -/
def encodeSymbols : List UrlSymbol → Nat → Except ErrorKind (List Byte)
  | [], _ => .ok []
  | sym :: rest, o =>
    if sym.encodable = false then .error .invalidArgument
    else if o = 16 then .error .lengthMismatch
    else (encodeSymbols rest (o + 1)).map (sym.code :: ·)

theorem bind_pure_eq_map {α β ε : Type} (x : Except ε α) (f : α → β) : (x >>= fun a => pure (f a)) = x.map f := by
  cases x <;> rfl

/-- The encoder's loop at a position where the greedy parse takes a symbol. -/
theorem UrlSymbol.TakenAt.encodeBody_eq {sym : UrlSymbol} {text : List Byte} (h : sym.TakenAt text) (o : Nat) :
    encodeBody text 0 o =
      if sym.encodable = false then .error .invalidArgument
      else if o = 16 then .error .lengthMismatch
      else (encodeBody (text.drop sym.text.length) 0 (o + 1)).map (sym.code :: ·) := by
  obtain ⟨c, rest, rfl⟩ := List.exists_cons_of_ne_nil h.ne_nil
  cases sym with
  | suffix k =>
    have hlen : (suffixRom k).length = (suffixRom k).length - 1 + 1 :=
      (Nat.succ_pred_eq_of_pos (List.length_pos_iff.mpr h.text_ne_nil)).symm
    have hdrop : (c :: rest).drop (suffixRom k).length = rest.drop ((suffixRom k).length - 1) := by
      rw [hlen]
      rfl
    rw [encodeBody, longestSuffix_eq_some_iff.mpr h]
    simp only [bind_pure_eq_map]
    rw [encodeBody_skip, ← hdrop]
    rfl
  | literal d =>
    obtain rfl : c = d := Option.some.inj h.1
    rw [encodeBody, longestSuffix_eq_none_iff.mpr h.2]
    simp only [bind_pure_eq_map, UrlSymbol.encodable, decide_eq_false_iff_not, Nat.not_le]
    rfl

theorem encodeBody_eq_encodeSymbols {text : List Byte} {syms : List UrlSymbol} (h : greedyParse text syms = true)
    (o : Nat) : encodeBody text 0 o = encodeSymbols syms o := by
  induction syms generalizing text o with
  | nil =>
    rw [(greedyParse_nil text).mp h]
    rfl
  | cons sym rest ih =>
    obtain ⟨hsym, hrest⟩ := (greedyParse_cons text sym rest).mp h
    rw [hsym.encodeBody_eq, ih hrest, encodeSymbols]

/-! ### The answers of the loop -/

/-- Symbols with codes of their own, as far as they fit, are passed with their codes written. -/
theorem encodeSymbols_append {done : List UrlSymbol} (henc : done.all UrlSymbol.encodable = true) {o : Nat}
    (hroom : o + done.length ≤ 16) (tail : List UrlSymbol) :
    encodeSymbols (done ++ tail) o =
      (encodeSymbols tail (o + done.length)).map (done.map UrlSymbol.code ++ ·) := by
  induction done generalizing o with
  | nil =>
    simp only [List.nil_append, List.length_nil, Nat.add_zero, List.map_nil]
    cases encodeSymbols tail o <;> rfl
  | cons sym rest ih =>
    rw [List.all_cons, Bool.and_eq_true] at henc
    rw [List.length_cons] at hroom
    rw [List.cons_append, encodeSymbols, if_neg (by simp [henc.1]), if_neg (by omega), ih henc.2 (by omega),
      List.length_cons, Nat.add_right_comm, Nat.add_assoc]
    cases encodeSymbols tail (o + (rest.length + 1)) <;> rfl

theorem encodeSymbols_of_fits {syms : List UrlSymbol} (henc : syms.all UrlSymbol.encodable = true)
    (hlen : syms.length ≤ 16) : encodeSymbols syms 0 = .ok (syms.map UrlSymbol.code) := by
  have happ := encodeSymbols_append henc (o := 0) (by omega) []
  simpa [encodeSymbols, Except.map] using happ

/-- A literal below 14 that the loop comes to, with the body not yet over its limit (R153). -/
theorem encodeSymbols_invalidArgument {done more : List UrlSymbol} {sym : UrlSymbol}
    (henc : done.all UrlSymbol.encodable = true) (hlen : done.length ≤ 16) (hsym : sym.encodable = false) :
    encodeSymbols (done ++ sym :: more) 0 = .error .invalidArgument := by
  rw [encodeSymbols_append henc (by omega), encodeSymbols, if_pos hsym]
  rfl

/-- A 17th symbol with a code of its own (R154). -/
theorem encodeSymbols_lengthMismatch {done more : List UrlSymbol} {sym : UrlSymbol}
    (henc : done.all UrlSymbol.encodable = true) (hlen : done.length = 16) (hsym : sym.encodable = true) :
    encodeSymbols (done ++ sym :: more) 0 = .error .lengthMismatch := by
  rw [encodeSymbols_append henc (by omega), encodeSymbols, if_neg (by simp [hsym]), if_pos (by omega)]
  rfl

/-- With every symbol encodable the length decides. -/
theorem encodeSymbols_of_encodable {syms : List UrlSymbol} (henc : syms.all UrlSymbol.encodable = true) :
    encodeSymbols syms 0 =
      if syms.length ≤ 16 then .ok (syms.map UrlSymbol.code) else .error .lengthMismatch := by
  split
  next hlen => exact encodeSymbols_of_fits henc hlen
  next hlen =>
    have hcut : syms = syms.take 16 ++ syms[16] :: syms.drop 17 := by
      rw [← List.drop_eq_getElem_cons, List.take_append_drop]
    have hmem : ∀ sym ∈ syms, sym.encodable = true := List.all_eq_true.mp henc
    rw [hcut]
    refine encodeSymbols_lengthMismatch (List.all_eq_true.mpr fun sym hsym => hmem sym (List.mem_of_mem_take hsym))
      (List.length_take_of_le (by omega)) (hmem _ (List.getElem_mem _))

/-- A symbol without a code among those the loop comes to ends it, so an accepted parse has none. -/
theorem encodeSymbols_all_encodable {syms : List UrlSymbol} {o : Nat} {body : List Byte}
    (h : encodeSymbols syms o = .ok body) : syms.all UrlSymbol.encodable = true := by
  induction syms generalizing o body with
  | nil => rfl
  | cons sym rest ih =>
    rw [encodeSymbols] at h
    obtain ⟨hsym, h⟩ := ok_of_check h
    obtain ⟨-, h⟩ := ok_of_check h
    obtain ⟨tail, htail, -⟩ := map_ok_iff.mp h
    rw [List.all_cons, ih htail, Bool.and_true]
    exact Bool.eq_true_of_not_eq_false hsym

theorem encodeSymbols_eq_ok_iff {syms : List UrlSymbol} {body : List Byte} :
    encodeSymbols syms 0 = .ok body ↔
      syms.length ≤ 16 ∧ syms.all UrlSymbol.encodable = true ∧ body = syms.map UrlSymbol.code := by
  constructor
  · intro h
    have henc := encodeSymbols_all_encodable h
    rw [encodeSymbols_of_encodable henc] at h
    split at h
    next hlen =>
      cases h
      exact ⟨hlen, henc, rfl⟩
    next => cases h
  · rintro ⟨hlen, henc, rfl⟩
    exact encodeSymbols_of_fits henc hlen

/-! ### The encoder -/

/-- A text that begins with a known scheme has the answer of the loop over its greedy parse. -/
theorem urlEncode_eq_encodeSymbols {text : List Byte} {k : Nat} (hk : beginsWithPrefix k text)
    {syms : List UrlSymbol} (hp : greedyParse (text.drop (prefixRom k).length) syms = true) :
    urlEncode text = (encodeSymbols syms 0).map (Prod.mk k) := by
  have hpos : text.length ≠ 0 := by
    have hmin := (prefixRom_length_le k (by omega)).1
    have hle := hk.2.1.length_le
    omega
  rw [urlEncode, if_neg hpos, longestPrefix_eq_some_iff.mpr hk]
  simp only [bind_pure_eq_map, encodeBody_eq_encodeSymbols hp]

theorem urlEncode_invalidScheme {text : List Byte} (hne : text ≠ []) (hno : ∀ k < 4, ¬ prefixRom k <+: text) :
    urlEncode text = .error .invalidScheme := by
  rw [urlEncode, if_neg (List.length_eq_zero_iff.not.mpr hne), longestPrefix_eq_none_iff.mpr hno]

/-- An accepted text is not empty and begins with some entry, and then the encoder's answer names the longest. -/
theorem beginsWithPrefix_of_urlEncode {text body : List Byte} {k : Nat} (h : urlEncode text = .ok (k, body)) :
    beginsWithPrefix k text := by
  rw [urlEncode] at h
  obtain ⟨-, h⟩ := ok_of_check h
  split at h
  · cases h
  next j hj =>
    obtain ⟨b, -, hb⟩ := bind_ok_iff.mp h
    cases hb
    exact longestPrefix_eq_some_iff.mp hj

theorem urlEncode_eq_ok_iff {text body : List Byte} {k : Nat} :
    urlEncode text = .ok (k, body) ↔
      beginsWithPrefix k text ∧ ∃ syms, greedyParse (text.drop (prefixRom k).length) syms = true ∧
        syms.length ≤ 16 ∧ syms.all UrlSymbol.encodable = true ∧ body = syms.map UrlSymbol.code := by
  constructor
  · intro h
    have hk := beginsWithPrefix_of_urlEncode h
    obtain ⟨syms, hp⟩ := exists_greedyParse (text.drop (prefixRom k).length)
    rw [urlEncode_eq_encodeSymbols hk hp] at h
    obtain ⟨b, hb, heq⟩ := map_ok_iff.mp h
    cases heq
    exact ⟨hk, syms, hp, encodeSymbols_eq_ok_iff.mp hb⟩
  · rintro ⟨hk, syms, hp, hbody⟩
    rw [urlEncode_eq_encodeSymbols hk hp, encodeSymbols_eq_ok_iff.mpr hbody]
    rfl

/-- Settles O51. -/
theorem encoderAcceptsTheGreedyParse : Obligations.EncoderAcceptsTheGreedyParse := by
  refine ⟨fun _ _ _ => urlEncode_eq_ok_iff, fun rest => ?_⟩
  obtain ⟨syms, hp⟩ := exists_greedyParse rest
  exact ⟨syms, hp, fun _ hp' => greedyParse_unique hp' hp⟩

/-- Settles O43: the loop over the symbols, cut at the one where it ends. -/
theorem encoderRaisesInOrder : Obligations.EncoderRaisesInOrder := by
  refine ⟨urlEncode_nil, fun _ => urlEncode_invalidScheme, fun k rest done sym more hk hp henc => ?_⟩
  rw [← List.drop_left (l₁ := prefixRom k) (l₂ := rest)] at hp
  rw [urlEncode_eq_encodeSymbols hk hp]
  constructor
  · intro hlen hsym
    rw [encodeSymbols_invalidArgument henc hlen hsym]
    rfl
  · intro hlen hsym
    rw [encodeSymbols_lengthMismatch henc hlen hsym]
    rfl

/-! ### The round trips -/

/-- The entry a text begins with and the codes of the greedy parse of the rest decode to the text. -/
theorem urlDecode_greedyParse {text : List Byte} {k : Nat} (hk : beginsWithPrefix k text) {syms : List UrlSymbol}
    (hp : greedyParse (text.drop (prefixRom k).length) syms = true)
    (henc : syms.all UrlSymbol.encodable = true) : urlDecode k (syms.map UrlSymbol.code) = text := by
  rw [urlDecode, greedyParse_decode hp henc]
  exact (List.prefix_append_drop hk.2.1).symm

/-- Settles O44: an accepted body is the codes of the greedy parse, each of which decodes to what it was taken for. -/
theorem urlTextRoundTrip : Obligations.UrlTextRoundTrip := by
  intro text k body h
  obtain ⟨hk, syms, hp, -, henc, rfl⟩ := urlEncode_eq_ok_iff.mp h
  exact urlDecode_greedyParse hk hp henc

/-- Settles O42: an accepted text is a decoded one, of a body of at most 16 bytes. -/
theorem encodedUrlFitsAUrlFrame : Obligations.EncodedUrlFitsAUrlFrame := by
  intro text k body h
  have hk : k ≤ 3 := Nat.le_of_lt_succ (beginsWithPrefix_of_urlEncode h).1
  have hbody := urlEncode_body_length_le h
  have htext := (urlDecode_length_bounds hk hbody).2
  rw [urlTextRoundTrip text k body h] at htext
  exact ⟨hk, hbody, htext⟩

/-- A decoded text begins with the entry it was decoded from, so with a longest one. -/
theorem exists_beginsWithPrefix_urlDecode {s : Nat} (hs : s ≤ 3) (body : List Byte) :
    ∃ k, beginsWithPrefix k (urlDecode s body) := by
  cases hk : longestPrefix (urlDecode s body) with
  | some k => exact ⟨k, longestPrefix_eq_some_iff.mp hk⟩
  | none => exact absurd (List.prefix_append _ _) (longestPrefix_eq_none_iff.mp hk s (by omega))

/-- Settles O45: a decoded text has no character below 14, so every symbol of its greedy parse has a code, and the
length alone decides what the encoder answers. -/
theorem urlCanonicalRoundTrip : Obligations.UrlCanonicalRoundTrip := by
  constructor
  · intro text k body h
    rw [urlTextRoundTrip text k body h]
    exact h
  · intro s body hs
    obtain ⟨k, hk⟩ := exists_beginsWithPrefix_urlDecode hs body
    obtain ⟨syms, hp⟩ := exists_greedyParse ((urlDecode s body).drop (prefixRom k).length)
    have henc := greedyParse_all_encodable hp fun c hc =>
      (decodedTextHasNoCharacterBelow14 s body hs c (List.mem_of_mem_drop hc)).1
    refine ⟨k, syms, hk, hp, henc, urlDecode_greedyParse hk hp henc, ?_⟩
    rw [urlEncode_eq_encodeSymbols hk hp, encodeSymbols_of_encodable henc, apply_ite (Except.map (Prod.mk k))]
    rfl

end Sys2Proof.Machine
end

