-- ==== Sys2Proof/Proofs/FrameLayouts.lean ====
section
/-! The payload layouts of the host's side (44_frame_encoder.md R174 to R176) are the inverse of the frame decoder. -/

namespace Sys2Proof.Machine

/-! ### The bytes of a number (R72) -/

theorem be16_extractLsb' (v : BitVec 16) : be16 (v.extractLsb' 8 8) (v.extractLsb' 0 8) = v := by
  apply BitVec.eq_of_toNat_eq
  simp only [be16_toNat, BitVec.extractLsb'_toNat]
  omega

theorem be32_extractLsb' (v : BitVec 32) :
    be32 (v.extractLsb' 24 8) (v.extractLsb' 16 8) (v.extractLsb' 8 8) (v.extractLsb' 0 8) = v := by
  apply BitVec.eq_of_toNat_eq
  simp only [be32_toNat, BitVec.extractLsb'_toNat]
  omega

/-! ### The three layouts -/

/-- A UID payload with any accepted number of bytes after its fields: the fields, and those bytes as the reserved pair
(R122). -/
theorem frameDecode_uidFields (ranging : Byte) {ns inst tail : List Byte} (hns : ns.length = 10)
    (hinst : inst.length = 6) (htail : tail.length = 0 ∨ tail.length = 2) :
    frameDecode 0x00 (ranging :: (ns ++ inst ++ tail)) =
      .ok { FrameResult.cleared with
        kind := 1, txpower := ranging, nspace := Memory.writeBytes [] 0 ns, inst := Memory.writeBytes [] 0 inst
        rsvdPresent := if tail.length = 2 then 1 else 0, rsvd := Memory.writeBytes [] 0 tail } := by
  have hlen : (ranging :: (ns ++ inst ++ tail)).length = 17 + tail.length := by
    simp only [List.length_cons, List.length_append, hns, hinst]
    omega
  have hnspace : ((ranging :: (ns ++ inst ++ tail)).drop 1).take 10 = ns := by
    rw [List.drop_succ_cons, List.drop_zero, List.append_assoc, List.take_left' hns]
  have hid : ((ranging :: (ns ++ inst ++ tail)).drop 11).take 6 = inst := by
    rw [List.drop_succ_cons, List.append_assoc, List.drop_left' hns, List.take_left' hinst]
  have hrest : (ranging :: (ns ++ inst ++ tail)).drop 17 = tail := by
    rw [List.drop_succ_cons, List.drop_left' (by rw [List.length_append, hns, hinst])]
  have hrsvd := drop_17_eq (p := ranging :: (ns ++ inst ++ tail)) (by omega)
  have hpresent : 17 + tail.length = 19 ↔ tail.length = 2 := by omega
  rw [hrest, hlen] at hrsvd
  rw [frameDecode_uid, if_neg (by omega), hlen, hnspace, hid]
  conv_rhs => rw [hrsvd]
  simp only [hpresent]
  split <;> rfl

/-- A UID payload decodes to its fields, with the reserved pair or without it (R122, R174). -/
theorem frameDecode_layoutUid (ranging a b : Byte) {ns inst : List Byte} (pair : Bool) (hns : ns.length = 10)
    (hinst : inst.length = 6) :
    frameDecode 0x00 (layoutUid ranging ns inst (if pair then some (a, b) else none)) =
      .ok { FrameResult.cleared with
        kind := 1, txpower := ranging, nspace := Memory.writeBytes [] 0 ns, inst := Memory.writeBytes [] 0 inst
        rsvdPresent := if pair then 1 else 0, rsvd := if pair then Memory.writeBytes [] 0 [a, b] else [] } := by
  cases pair with
  | false => exact frameDecode_uidFields ranging hns hinst (.inl rfl)
  | true => exact frameDecode_uidFields ranging (tail := [a, b]) hns hinst (.inr rfl)

/-- A URL payload decodes to the text of its body (R123, R175). -/
theorem frameDecode_layoutUrl (tx : Byte) {k : Byte} {body : List Byte} (hk : k.toNat ≤ 3) (hbody : body.length ≤ 16) :
    frameDecode 0x10 (layoutUrl tx k body) =
      .ok { FrameResult.ofText (urlDecode k.toNat body) with kind := 2, txpower := tx } := by
  have hlen : (layoutUrl tx k body).length = body.length + 2 := rfl
  rw [frameDecode_url, hlen, if_neg (by omega), if_neg (by omega)]
  exact if_neg hk.not_gt

/-- A TLM payload decodes to its fields (R125, R176). -/
theorem frameDecode_layoutTlm (version hi lo : Byte) (vbatt : BitVec 16) (adv time : BitVec 32) :
    frameDecode 0x20 (layoutTlm version vbatt hi lo adv time) =
      .ok { FrameResult.cleared with
        kind := 3, version := version, vbatt := vbatt, tempInt := hi, tempFrac := lo, advCount := adv
        time := time } := by
  have hlen : (layoutTlm version vbatt hi lo adv time).length = 13 := rfl
  rw [frameDecode_tlm, hlen, if_neg (by decide), if_neg (by decide)]
  conv_rhs => rw [← be16_extractLsb' vbatt, ← be32_extractLsb' adv, ← be32_extractLsb' time]
  rfl

/-- Settles O34, one layout at a time. -/
theorem layoutsDecodeToTheirFields : Obligations.LayoutsDecodeToTheirFields :=
  ⟨fun ranging a b _ _ pair => frameDecode_layoutUid ranging a b pair, fun tx _ _ => frameDecode_layoutUrl tx,
    frameDecode_layoutTlm⟩

end Sys2Proof.Machine
end

