-- ==== Sys2Proof/Proofs/PacketRoundTrip.lean ====
section
/-! The packet builder and the decoder (44_frame_encoder.md R170 to R177): a built packet scans to the header it was
built with, so it decodes to the verdict on its payload, in the functions, on the block, and from text to text. -/

namespace Sys2Proof.Machine

/-! ### What the builder accepts (R172) -/

theorem isFrameType_of_frameDecode_ok {ft : Byte} {p : List Byte} {r : FrameResult} (h : frameDecode ft p = .ok r) :
    isFrameType ft = true := by
  rw [isFrameType_iff]
  rintro ⟨h0, h1, h2⟩
  rw [frameDecode_invalid h0 h1 h2] at h
  cases h

/-- No frame type has an empty payload (R127). -/
theorem frameDecode_nil (ft : Byte) : ∃ e, frameDecode ft [] = .error e := by
  by_cases h0 : ft = 0x00
  · exact ⟨.lengthMismatch, by rw [h0, frameDecode_uid]; rfl⟩
  by_cases h1 : ft = 0x10
  · exact ⟨.lengthMismatch, by rw [h1, frameDecode_url]; rfl⟩
  by_cases h2 : ft = 0x20
  · exact ⟨.lengthMismatch, by rw [h2, frameDecode_tlm]; rfl⟩
  · exact ⟨.invalidFrameType, frameDecode_invalid h0 h1 h2 []⟩

/-- The builder accepts exactly what the frame decoder accepts: its own check of the empty payload rejects nothing
more (R171, R172). -/
theorem buildBytes_eq_ok_iff {overhead : Nat} {ft : Byte} {p pkt : List Byte} :
    buildBytes overhead ft p = .ok pkt ↔ (∃ r, frameDecode ft p = .ok r) ∧ packetBytes overhead ft p = pkt := by
  unfold buildBytes
  cases hframe : frameDecode ft p with
  | error e => split <;> simp
  | ok r =>
    have hne : p.length ≠ 0 := by
      intro h0
      obtain ⟨e, he⟩ := frameDecode_nil ft
      rw [List.length_eq_zero_iff.mp h0, he] at hframe
      cases hframe
    simp [hne]

/-- A packet of an accepted payload fits in `OUT_BUF` and in `IN_BUF`. -/
theorem packetBytes_length_le {ft : Byte} {p : List Byte} {r : FrameResult} (h : frameDecode ft p = .ok r)
    (overhead : Nat) : (packetBytes overhead ft p).length ≤ 31 := by
  have hp := (frameDecode_ok h).1
  rw [packetBytes_length]
  omega

/-! ### The scan of a built packet (R171, R173) -/

/-- The header of a packet built for frame type `ft` (R177). -/
def Header.ofPacket (ft : Byte) : Header :=
  { flagsValid := 1, flags := 0x06, svcUuid := 0xFEAA, svcDataType := 0xFEAA, frameType := ft }

/-- An iteration over a Flags structure that fits (R103). -/
theorem scanBytesFrom_flags {b : List Byte} {c l : Nat} (hl : (byteAt b c).toNat = l) (hmin : 2 ≤ l)
    (hfits : c + 1 + l ≤ b.length) (ht : byteAt b (c + 1) = 0x01) (k : Nat) (h : Header) :
    scanBytesFrom b (k + 1) c h =
      scanBytesFrom b k (c + 1 + l) { h with flags := byteAt b (c + 2), flagsValid := 1 } := by
  simp only [scanBytesFrom, hl, ht, if_true]
  rw [if_neg (by omega), if_neg (by omega), if_neg (by omega), if_neg (by omega)]

/-- An iteration over a list of UUIDs that begins with the beacon's (R104). -/
theorem scanBytesFrom_uuid16 {b : List Byte} {c l : Nat} (hl : (byteAt b c).toNat = l) (hmin : 3 ≤ l)
    (hfits : c + 1 + l ≤ b.length) (ht : byteAt b (c + 1) = 0x03)
    (hu : le16 (byteAt b (c + 2)) (byteAt b (c + 3)) = 0xFEAA) (k : Nat) (h : Header) :
    scanBytesFrom b (k + 1) c h = scanBytesFrom b k (c + 1 + l) { h with svcUuid := 0xFEAA } := by
  have hne : (0x03 : Byte) ≠ 0x01 := by decide
  simp only [scanBytesFrom, hl, ht, hu, if_true, if_neg hne]
  rw [if_neg (by omega), if_neg (by omega), if_neg (by omega), if_neg (by omega), if_neg (not_not.mpr rfl)]

/-- The last iteration, over the service data of a beacon (R105): its length byte is only checked to fit. -/
theorem scanBytesFrom_svcdata16 {b : List Byte} {c l : Nat} (hl : (byteAt b c).toNat = l) (hmin : 1 ≤ l)
    (hfits : c + 1 + l ≤ b.length) (hroom : c + 4 < b.length) (ht : byteAt b (c + 1) = 0x16)
    (hu : le16 (byteAt b (c + 2)) (byteAt b (c + 3)) = 0xFEAA) (hft : isFrameType (byteAt b (c + 4)) = true)
    (k : Nat) (h : Header) :
    scanBytesFrom b (k + 1) c h =
      .ok ({ h with svcDataType := 0xFEAA, frameType := byteAt b (c + 4) }, c + 5) := by
  have hne : (0x16 : Byte) ≠ 0x01 ∧ (0x16 : Byte) ≠ 0x03 := by decide
  simp only [scanBytesFrom, hl, ht, hu, if_true, if_neg hne.1, if_neg hne.2]
  rw [if_neg (by omega), if_neg (by omega), if_neg (by omega), if_neg (by omega), if_neg (not_not.mpr rfl),
    if_neg (isFrameType_iff.mp hft)]

/-- The Flags structure of a packet (R68, R171). -/
theorem packetBytes_flags (overhead : Nat) (ft : Byte) (p : List Byte) :
    (byteAt (packetBytes overhead ft p) 0).toNat = 2 ∧ byteAt (packetBytes overhead ft p) 1 = 0x01 ∧
    byteAt (packetBytes overhead ft p) 2 = 0x06 := by
  simp [packetBytes, byteAt, Config.flagsValue]

/-- The UUID list of a packet (R68, R171). -/
theorem packetBytes_uuid16 (overhead : Nat) (ft : Byte) (p : List Byte) :
    (byteAt (packetBytes overhead ft p) 3).toNat = 3 ∧ byteAt (packetBytes overhead ft p) 4 = 0x03 ∧
    le16 (byteAt (packetBytes overhead ft p) 5) (byteAt (packetBytes overhead ft p) 6) = 0xFEAA := by
  have huuid : le16 0xAA 0xFE = 0xFEAA := by decide
  simpa [packetBytes, byteAt] using huuid

/-- The service-data structure of a packet, up to the payload (R68, R171, R173). -/
theorem packetBytes_svcdata16 {overhead : Nat} {p : List Byte} (h : overhead + p.length < 256) (ft : Byte) :
    (byteAt (packetBytes overhead ft p) 7).toNat = overhead + p.length ∧
    byteAt (packetBytes overhead ft p) 8 = 0x16 ∧
    le16 (byteAt (packetBytes overhead ft p) 9) (byteAt (packetBytes overhead ft p) 10) = 0xFEAA ∧
    byteAt (packetBytes overhead ft p) 11 = ft := by
  have huuid : le16 0xAA 0xFE = 0xFEAA := by decide
  simpa [packetBytes, byteAt] using And.intro h huuid

/-- A built packet is scanned in three iterations, one for each structure. The length byte of the last leaves it inside
the packet for every overhead up to 4 (R173). -/
theorem scanBytes_packetBytes {overhead : Nat} {ft : Byte} {p : List Byte} (hmin : 1 ≤ overhead) (hmax : overhead ≤ 4)
    (hp : p.length ≤ 19) (hft : isFrameType ft = true) :
    scanBytes (packetBytes overhead ft p) = .ok (Header.ofPacket ft, 12) := by
  have hlen := packetBytes_length overhead ft p
  obtain ⟨hl0, ht1, hflags⟩ := packetBytes_flags overhead ft p
  obtain ⟨hl3, ht4, huuid5⟩ := packetBytes_uuid16 overhead ft p
  obtain ⟨hl7, ht8, huuid9, hft11⟩ := packetBytes_svcdata16 (overhead := overhead) (p := p) (by omega) ft
  generalize packetBytes overhead ft p = b at *
  calc scanBytes b
      = scanBytesFrom b (10 + p.length + 1 + 1 + 1) 0 Header.cleared := by
        rw [scanBytes, hlen]
        congr 1
        omega
    _ = scanBytesFrom b (10 + p.length + 1 + 1) 3 { Header.cleared with flags := 0x06, flagsValid := 1 } := by
        rw [scanBytesFrom_flags hl0 (by decide) (by omega) ht1, hflags]
    _ = scanBytesFrom b (10 + p.length + 1) 7
          { Header.cleared with flags := 0x06, flagsValid := 1, svcUuid := 0xFEAA } :=
        scanBytesFrom_uuid16 hl3 (by decide) (by omega) ht4 huuid5 _ _
    _ = .ok (Header.ofPacket ft, 12) := by
        rw [scanBytesFrom_svcdata16 hl7 (by omega) (by omega) (by omega) ht8 huuid9 (by rwa [hft11]), hft11]
        rfl

/-- A built packet decodes to its own header and to the verdict on its payload (R177). -/
theorem decodeBytes_packetBytes {overhead : Nat} {ft : Byte} {p : List Byte} {r : FrameResult} (hmin : 1 ≤ overhead)
    (hmax : overhead ≤ 4) (hframe : frameDecode ft p = .ok r) :
    decodeBytes (packetBytes overhead ft p) = .ok (Header.ofPacket ft, 12, r) := by
  have hscan := scanBytes_packetBytes hmin hmax (frameDecode_ok hframe).1 (isFrameType_of_frameDecode_ok hframe)
  have hpayload : (packetBytes overhead ft p).drop 12 = p := rfl
  have hne : (packetBytes overhead ft p).length ≠ 0 := by
    rw [packetBytes_length]
    omega
  simp only [decodeBytes, hscan, if_neg hne, hpayload]
  rw [show (Header.ofPacket ft).frameType = ft from rfl, hframe]

/-- Settles O46: the builder accepts what `frame_decode` accepts, and the packet decodes to that verdict. -/
theorem buildThenDecode : Obligations.BuildThenDecode := by
  intro overhead ft p pkt hoverhead hbuild
  obtain ⟨⟨r, hframe⟩, rfl⟩ := buildBytes_eq_ok_iff.mp hbuild
  exact ⟨packetBytes_length overhead ft p, packetBytes_length_le hframe overhead, r, hframe,
    decodeBytes_packetBytes (by omega) (by omega) hframe⟩

/-! ### Byte strings that the host copies (R227) -/

/-- A byte string written to an empty bank reads back. -/
theorem Memory.readBytes_writeBytes_nil (bytes : List Byte) :
    (Memory.writeBytes [] 0 bytes).readBytes 0 bytes.length = bytes := by
  apply List.ext_getElem
  · simp
  · intro i hi hi'
    have hread := Memory.byteAt_readBytes (Memory.writeBytes [] 0 bytes) 0 bytes.length i hi'
    rw [Nat.zero_add, Memory.read_writeBytes_nil] at hread
    simpa [byteAt, hi'] using hread

/-- A bank that holds a byte string, with its length in a 5-bit register, reads as the string. -/
theorem Memory.readBytes_copied {bytes : List Byte} (h : bytes.length ≤ 31) :
    (Memory.writeBytes [] 0 bytes).readBytes 0 (BitVec.ofNat 5 bytes.length).toNat = bytes := by
  rw [BitVec.toNat_ofNat, Nat.mod_eq_of_lt (by omega), Memory.readBytes_writeBytes_nil]

/-- The state in which the host has put a byte string and its length into `IN_BUF` and `IN_LEN`. -/
theorem State.inBytes_copied {s : State} {bytes : List Byte} (hbuf : s.host.inBuf = Memory.writeBytes [] 0 bytes)
    (hlen : s.host.inLen = BitVec.ofNat 5 bytes.length) (h : bytes.length ≤ 31) : s.inBytes = bytes := by
  rw [State.inBytes, State.len, hbuf, hlen, Memory.readBytes_copied h]

/-- The host copies `OUT_BUF` and `OUT_LEN` to `IN_BUF` and `IN_LEN` (R177). -/
def State.copyOut (s : State) : State :=
  { s with host := { s.host with inBuf := s.blk.outBuf, inLen := s.blk.outLen } }

theorem State.copyOut_inBytes (s : State) {bytes : List Byte} (h : bytes.length ≤ 31) :
    (s.succeed (BlockRegs.ofOut bytes)).copyOut.inBytes = bytes :=
  State.inBytes_copied rfl rfl h

/-! ### Building and decoding on the block (R183, R188) -/

theorem exec_cmdBuild_of_frameDecode {s : State} {r : FrameResult}
    (hframe : frameDecode s.host.arg s.inBytes = .ok r) :
    exec .cmdBuild s = .next (s.succeed (BlockRegs.ofOut (packetBytes 1 s.host.arg s.inBytes))) := by
  rw [exec_command rfl, commandAnswer, buildBytes_eq_ok_iff.mpr ⟨⟨r, hframe⟩, rfl⟩]
  rfl

/-- `CMD_DECODE` of the packet that a command has left in `OUT_BUF`, copied to `IN_BUF`. -/
theorem exec_cmdDecode_copyOut (s : State) {ft : Byte} {p : List Byte} {r : FrameResult}
    (hframe : frameDecode ft p = .ok r) :
    exec .cmdDecode (s.succeed (BlockRegs.ofOut (packetBytes 1 ft p))).copyOut =
      .next ((s.succeed (BlockRegs.ofOut (packetBytes 1 ft p))).copyOut.succeed
        { BlockRegs.ofScan (Header.ofPacket ft) 12 with result := r }) := by
  rw [exec_command rfl, commandAnswer, s.copyOut_inBytes (packetBytes_length_le hframe 1),
    decodeBytes_packetBytes (by decide) (by decide) hframe]
  rfl

/-- Settles O47: a success of `CMD_BUILD` has written the packet of an accepted payload. -/
theorem builtPacketDecodesOnTheBlock : Obligations.BuiltPacketDecodesOnTheBlock := by
  intro s t hbuild herr
  obtain ⟨b, hsucc, rfl⟩ | ⟨e, rfl⟩ := exec_command_cases rfl hbuild
  · cases hsucc with
    | build hframe => exact ⟨_, hframe, exec_cmdDecode_copyOut s hframe⟩
  · simp at herr

/-! ### From text to text (R175, R227) -/

/-- The URL payload that the host makes of a power byte and an encoded URL decodes to the text (R155, R175). -/
theorem frameDecode_encodedUrl {text body : List Byte} {k : Nat} (tx : Byte) (h : urlEncode text = .ok (k, body)) :
    frameDecode 0x10 (tx :: encodedUrlBytes (k, body)) =
      .ok { FrameResult.ofText text with kind := 2, txpower := tx } := by
  obtain ⟨hk, hbody, -⟩ := encodedUrlFitsAUrlFrame text k body h
  have hcode : (BitVec.ofNat 8 k).toNat = k := Nat.mod_eq_of_lt (by omega)
  have hdecode := frameDecode_layoutUrl tx (k := BitVec.ofNat 8 k) (by omega) hbody
  rwa [hcode, urlTextRoundTrip text k body h] at hdecode

/-- Settles O48: the builder accepts the host's payload because the frame decoder does, and the packet decodes to the
same result, which `frameDecode_encodedUrl` names. -/
theorem textSurvivesEncodeBuildDecode : Obligations.TextSurvivesEncodeBuildDecode := by
  intro s t tx henc herr payload u
  obtain ⟨b, hsucc, rfl⟩ | ⟨e, rfl⟩ := exec_command_cases rfl henc
  · cases hsucc with
    | @urlenc k body hurl =>
      obtain ⟨-, hbody, htext⟩ := encodedUrlFitsAUrlFrame s.text k body hurl
      have hlen : (encodedUrlBytes (k, body)).length ≤ 17 := Nat.succ_le_succ hbody
      have hpayload : payload = tx :: encodedUrlBytes (k, body) :=
        congrArg (tx :: ·) (Memory.readBytes_copied (by omega))
      have hin : u.inBytes = payload := State.inBytes_copied rfl rfl (by rw [hpayload, List.length_cons]; omega)
      have hframe : frameDecode u.host.arg u.inBytes =
          .ok { FrameResult.ofText s.text with kind := 2, txpower := tx } := by
        rw [hin, hpayload]
        exact frameDecode_encodedUrl tx hurl
      have hurlLen : (BitVec.ofNat 7 s.text.length).toNat = s.text.length := Nat.mod_eq_of_lt (by omega)
      exact ⟨_, exec_cmdBuild_of_frameDecode hframe, State.succeed_err _ _, _, exec_cmdDecode_copyOut u hframe,
        State.succeed_err _ _, rfl, rfl, hurlLen, Memory.read_writeBytes_nil s.text⟩
  · simp at herr

end Sys2Proof.Machine
end

