-- ==== Sys2Proof/Proofs/HostCommands.lean ====
section
/-! The host commands (45_host_commands.md R180 to R189): each computes its function of the arguments, no instruction
writes the host's side, and every step answers. -/

namespace Sys2Proof.Machine

/-! ### Each command computes its function (R183 to R189) -/

theorem exec_of_commandAnswer_ok {i : Instr} (hi : isCommand i = true) {s : State} {b : BlockRegs}
    (h : commandAnswer i s.inBytes s.host.arg s.text = .ok b) : exec i s = .next (s.succeed b) := by
  rw [exec_command hi, h]
  rfl

theorem exec_of_commandAnswer_error {i : Instr} (hi : isCommand i = true) {s : State} {e : ErrorKind}
    (h : commandAnswer i s.inBytes s.host.arg s.text = .error e) : exec i s = .next (s.takeError e) := by
  rw [exec_command hi, h]
  rfl

/-- A command whose answer is a function's, put into the registers by `f`, ends with the function's error or with its
result (R182). -/
theorem exec_of_commandAnswer_map {α : Type} {i : Instr} (hi : isCommand i = true) {s : State}
    {x : Except ErrorKind α} {f : α → BlockRegs}
    (h : commandAnswer i s.inBytes s.host.arg s.text = x.map f) :
    (∀ e, x = .error e → exec i s = .next (s.takeError e)) ∧
    ∀ a, x = .ok a → exec i s = .next (s.succeed (f a)) := by
  refine ⟨fun e hx => exec_of_commandAnswer_error hi ?_, fun a hx => exec_of_commandAnswer_ok hi ?_⟩
  · rw [h, hx]
    rfl
  · rw [h, hx]
    rfl

/-- Settles O17: past the check of the empty input the answer is that of `scan`. -/
theorem scanCommandComputesScan : Obligations.ScanCommandComputesScan := by
  intro s
  constructor
  · intro h0
    exact exec_of_commandAnswer_error rfl (if_pos (s.inBytes_length.trans h0))
  · intro hne
    have hin : s.inBytes.length ≠ 0 := by rwa [State.inBytes_length]
    obtain ⟨herror, hok⟩ := exec_of_commandAnswer_map (i := .cmdScan) rfl (if_neg hin)
    exact ⟨herror, fun h p => hok (h, p)⟩

/-- Settles O18. -/
theorem decodeCommandComputesDecode : Obligations.DecodeCommandComputesDecode := by
  intro s
  obtain ⟨herror, hok⟩ := exec_of_commandAnswer_map (i := .cmdDecode) (s := s) rfl rfl
  exact ⟨herror, fun h p r => hok (h, p, r)⟩

/-- Settles O19. -/
theorem frameCommandComputesFrameDecode : Obligations.FrameCommandComputesFrameDecode :=
  fun _ => exec_of_commandAnswer_map (i := .cmdFrame) rfl rfl

/-- Settles O20: the two guards in their order, and the decoder behind them. -/
theorem urlDecodeCommandComputesUrlDecode : Obligations.UrlDecodeCommandComputesUrlDecode := by
  intro s
  refine ⟨fun hlong => ?_, fun hlen hscheme => ?_, fun hlen hscheme => ?_⟩
  · refine exec_of_commandAnswer_error rfl ?_
    rw [commandAnswer, State.inBytes_length, if_pos hlong]
  · refine exec_of_commandAnswer_error rfl ?_
    rw [commandAnswer, State.inBytes_length, if_neg hlen.not_gt, if_pos hscheme]
  · refine exec_of_commandAnswer_ok rfl ?_
    rw [commandAnswer, State.inBytes_length, if_neg hlen.not_gt, if_neg hscheme.not_gt]

/-- Settles O21. -/
theorem urlEncodeCommandWritesTheEncodedUrl : Obligations.UrlEncodeCommandWritesTheEncodedUrl := by
  intro s
  obtain ⟨herror, hok⟩ := exec_of_commandAnswer_map (i := .cmdUrlenc) (s := s) rfl rfl
  exact ⟨herror, fun k body => hok (k, body)⟩

/-- Settles O22. -/
theorem buildCommandComputesBuildPacket : Obligations.BuildCommandComputesBuildPacket :=
  fun _ => exec_of_commandAnswer_map (i := .cmdBuild) rfl rfl

theorem exec_cmdReserved (code : Byte) (s : State) :
    exec (.cmdReserved code) s = .next (s.takeError .invalidArgument) :=
  exec_of_commandAnswer_error rfl rfl

/-- After an error entry the host reads 0 everywhere but in `STATUS` and `ERR_CODE` (R210). -/
theorem State.takeError_hostRead (s : State) (e : ErrorKind) {r : HostReg} (hr : r.blockWritten = true)
    (hstatus : r ≠ .status) (hcode : r ≠ .errCode) : (s.takeError e).hostRead r = 0 := by
  cases r with
  | status => exact absurd rfl hstatus
  | errCode => exact absurd rfl hcode
  | inBuf | inLen | arg | txtIn | txtInLen | cmd => cases hr
  | _ => rfl

/-- Settles O23: 0 and the values from 7 on have the default row of the command map. -/
theorem reservedCodeRaisesInvalidArgument : Obligations.ReservedCodeRaisesInvalidArgument := by
  refine ⟨exec_cmdReserved, fun s c rest hc hp => ?_⟩
  have hrow : decodeByte .cmd c = .cmdReserved c := decodeCmd_of_wellFormed (by simpa [wellFormed] using hc)
  have hstep : step s = .next (((State.mk s.host s.blk rest).setCmd c).takeError .invalidArgument) := by
    rw [step_writeCmd hp, hrow, exec_cmdReserved]
  exact ⟨_, hstep, rfl, rfl, fun r => State.takeError_hostRead _ _⟩

/-! ### What an instruction can write (R182) -/

/-- An AD row that has its effect has set the header and the cursor (R103 to R106). -/
theorem runAdRow_ok {i : Instr} {s t : State} (h : runAdRow i s = .ok t) : ∃ r, t = s.scanned r := by
  cases i with
  | adFlags =>
    obtain ⟨l, -, h⟩ := bind_ok_iff.mp h
    obtain ⟨-, -, h⟩ := bind_ok_iff.mp h
    cases h
    exact ⟨(_, _), rfl⟩
  | adUuid16 =>
    obtain ⟨l, -, h⟩ := bind_ok_iff.mp h
    obtain ⟨-, -, h⟩ := bind_ok_iff.mp h
    obtain ⟨-, -, h⟩ := bind_ok_iff.mp h
    cases h
    exact ⟨(_, _), rfl⟩
  | adSvcdata16 =>
    obtain ⟨l, -, h⟩ := bind_ok_iff.mp h
    obtain ⟨-, -, h⟩ := bind_ok_iff.mp h
    obtain ⟨-, -, h⟩ := bind_ok_iff.mp h
    obtain ⟨-, -, h⟩ := bind_ok_iff.mp h
    cases h
    exact ⟨(_, _), rfl⟩
  | adSkip t =>
    obtain ⟨l, -, h⟩ := bind_ok_iff.mp h
    cases h
    exact ⟨(s.blk.header, _), rfl⟩
  | _ => cases h

theorem emit_ok {chars : List Byte} {s t : State} (h : emit chars s = .ok t) : ∃ r, t = s.setResult r :=
  ⟨_, (emit_ok_iff.mp h).2⟩

/-- A prefix is appended to an emptied text, so the result registers are written twice. -/
theorem emitPrefix_ok (k : Nat) {s t : State} (h : emitPrefix k s = .ok t) : ∃ r, t = s.setResult r := by
  obtain ⟨r, rfl⟩ := emit_ok h
  exact ⟨r, rfl⟩

/-- A scheme or symbol row that has its effect has set the result registers (R143 to R145). -/
theorem runUrlRow_ok {i : Instr} {s t : State} (h : runUrlRow i s = .ok t) : ∃ r, t = s.setResult r := by
  cases i with
  | urlPfx0 => exact emitPrefix_ok 0 h
  | urlPfx1 => exact emitPrefix_ok 1 h
  | urlPfx2 => exact emitPrefix_ok 2 h
  | urlPfx3 => exact emitPrefix_ok 3 h
  | urlSfx0 | urlSfx1 | urlSfx2 | urlSfx3 | urlSfx4 | urlSfx5 | urlSfx6 => exact emit_ok h
  | urlSfx7 | urlSfx8 | urlSfx9 | urlSfx10 | urlSfx11 | urlSfx12 | urlSfx13 => exact emit_ok h
  | urlLit c => exact emit_ok h
  | _ => cases h

/-- A row whose effect is in the block-written group writes nothing else when it runs on its own: nor does its error
entry (R210). -/
theorem finishRow_writes_blk {s t : State} {x : Except Stop State} (hx : ∀ u, x = .ok u → ∃ b, u = s.setBlk b)
    (h : finishRow s x = .next t) : ∃ b, t = s.setBlk b := by
  obtain hok | ⟨e, -, rfl⟩ := finishRow_next h
  · exact hx t hok
  · exact ⟨BlockRegs.failed e, rfl⟩

theorem exec_frameRow_writes_blk {i : Instr} (hi : formatOf i = .frame) {s t : State} (h : exec i s = .next t) :
    ∃ b, t = s.setBlk b := by
  cases i with
  | frameUid =>
    rw [exec_frameUid] at h
    cases h
    split_ifs <;> exact ⟨_, rfl⟩
  | frameUrl =>
    rw [exec_frameUrl] at h
    cases h
    split_ifs <;> exact ⟨_, rfl⟩
  | frameTlm =>
    rw [exec_frameTlm] at h
    cases h
    split_ifs <;> exact ⟨_, rfl⟩
  | frameInvalid ft =>
    cases h
    exact ⟨_, rfl⟩
  | _ => cases hi

/-- An instruction that answers a next state has written the block-written group and nothing else (R31, R182). -/
theorem exec_writes_blk {i : Instr} {s t : State} (h : exec i s = .next t) : ∃ b, t = s.setBlk b := by
  have hurl (hi : formatOf i = .scheme ∨ formatOf i = .sym) : ∃ b, t = s.setBlk b := by
    rw [exec_urlRow hi] at h
    refine finishRow_writes_blk (fun u hu => ?_) h
    obtain ⟨r, rfl⟩ := runUrlRow_ok hu
    exact ⟨_, rfl⟩
  cases hf : formatOf i with
  | ad =>
    rw [exec_adRow hf] at h
    refine finishRow_writes_blk (fun u hu => ?_) h
    obtain ⟨r, rfl⟩ := runAdRow_ok hu
    exact ⟨_, rfl⟩
  | frame => exact exec_frameRow_writes_blk hf h
  | scheme => exact hurl (.inl hf)
  | sym => exact hurl (.inr hf)
  | cmd =>
    have hi : isCommand i = true := by rw [isCommand, hf]; rfl
    obtain ⟨r, -, rfl⟩ | ⟨e, rfl⟩ := exec_command_cases hi h
    · exact ⟨_, rfl⟩
    · exact ⟨_, rfl⟩

/-- Settles O12: the host's side is outside the block-written group. -/
theorem noInstructionWritesHostState : Obligations.NoInstructionWritesHostState := by
  intro i s t h
  obtain ⟨b, rfl⟩ := exec_writes_blk h
  exact ⟨rfl, rfl⟩

/-! ### Every step answers (R180) -/

/-- Settles O9: no event and an access answer at once, and a command ends by `exec_command`. -/
theorem everyStepAnswersANextState : Obligations.EveryStepAnswersANextState := by
  intro s
  obtain ⟨hp, -⟩ | ⟨c, rest, hp, -⟩ | ⟨e, rest, hp, he, -⟩ := fetch_cases s
  · exact ⟨s, step_idle hp⟩
  · exact ⟨_, (step_writeCmd hp).trans (exec_command (isCommand_decodeByte_cmd c) _)⟩
  · exact ⟨_, step_access hp he⟩

end Sys2Proof.Machine
end

