-- ==== Sys2Proof/Proofs/CommandErrors.lean ====
section
/-! The errors of the commands (60_exceptions.md R200 to R212): every command ends in a success or in an error entry,
and which errors a command can end with. -/

namespace Sys2Proof.Machine

/-! ### How a command ends (R210, R212) -/

@[simp] theorem State.succeed_done (s : State) (b : BlockRegs) : (s.succeed b).done = true :=
  show statusDone.getLsbD 0 = true by decide

@[simp] theorem State.takeError_done (s : State) (e : ErrorKind) : (s.takeError e).done = true :=
  show statusDoneErr.getLsbD 0 = true by decide

/-- A success leaves no error code (R212). -/
theorem CommandSuccess.errCode {b text : List Byte} {arg : Byte} {i : Instr} {r : BlockRegs}
    (h : CommandSuccess b arg text i r) : r.errCode = 0 := by
  cases h <;> rfl

/-- Settles O13, by how the command ends. -/
theorem commandEndsInSuccessOrErrorEntry : Obligations.CommandEndsInSuccessOrErrorEntry := by
  intro i s hi
  obtain ⟨t, ht⟩ : ∃ t, exec i s = .next t := ⟨_, exec_command hi s⟩
  refine ⟨t, ht, ?_⟩
  obtain ⟨r, hsucc, rfl⟩ | ⟨e, rfl⟩ := exec_command_cases hi ht
  · exact ⟨rfl, rfl, s.succeed_done r, .inl ⟨s.succeed_err r, hsucc.errCode⟩⟩
  · exact ⟨rfl, rfl, s.takeError_done e, .inr ⟨s.takeError_err e, e, rfl, fun _ => s.takeError_hostRead e⟩⟩

/-! ### The errors of a function (R201 to R206) -/

/-- The table of R207 has command `i` marked at every error that `x` may be. -/
def OnlyRaises {α : Type} (i : Instr) (x : Except ErrorKind α) : Prop := ∀ e, x = .error e → mayRaise i e = true

theorem OnlyRaises.ok {α : Type} (i : Instr) (a : α) : OnlyRaises i (.ok a) := nofun

theorem OnlyRaises.error {α : Type} {i : Instr} {e : ErrorKind} (he : mayRaise i e = true) :
    OnlyRaises i (.error e : Except ErrorKind α) := by
  rintro _ ⟨⟩
  exact he

/-- A choice between two functions. -/
theorem OnlyRaises.ite {α : Type} {i : Instr} {c : Prop} [Decidable c] {x y : Except ErrorKind α}
    (hx : OnlyRaises i x) (hy : OnlyRaises i y) : OnlyRaises i (if c then x else y) := by
  split
  · exact hx
  · exact hy

/-- A check with an error that is marked. -/
theorem OnlyRaises.check {α : Type} {i : Instr} {c : Prop} [Decidable c] {e : ErrorKind} {x : Except ErrorKind α}
    (he : mayRaise i e = true) (hx : OnlyRaises i x) : OnlyRaises i (if c then .error e else x) :=
  .ite (.error he) hx

theorem OnlyRaises.map {α β : Type} {i : Instr} {x : Except ErrorKind α} (hx : OnlyRaises i x) (f : α → β) :
    OnlyRaises i (x.map f) := by
  cases x with
  | ok a => exact .ok i (f a)
  | error e => exact .error (hx e rfl)

/-- A function that a command shares with another whose errors are all its own. -/
theorem OnlyRaises.mono {α : Type} {i j : Instr} {x : Except ErrorKind α} (hx : OnlyRaises i x)
    (hij : ∀ e, mayRaise i e = true → mayRaise j e = true) : OnlyRaises j x :=
  fun e he => hij e (hx e he)

/-! ### No function answers an error outside its command's row (R207) -/

theorem scanBytesFrom_onlyRaises (b : List Byte) (k p : Nat) (h : Header) :
    OnlyRaises .cmdScan (scanBytesFrom b k p h) := by
  induction k generalizing p h with
  | zero => exact .error rfl
  | succ k ih =>
    refine .check rfl (.check rfl (.check rfl (.ite ?flags (.ite ?uuid16 (.ite ?svcdata16 (ih _ _))))))
    case flags => exact .check rfl (ih _ _)
    case uuid16 => exact .check rfl (.check rfl (ih _ _))
    case svcdata16 => exact .check rfl (.check rfl (.check rfl (.ok _ _)))

theorem frameDecode_onlyRaises (ft : Byte) (p : List Byte) : OnlyRaises .cmdFrame (frameDecode ft p) := by
  refine .ite ?uid (.ite ?url (.ite ?tlm (.error rfl)))
  case uid => exact .check rfl (.ok _ _)
  case url => exact .check rfl (.check rfl (.check rfl (.ok _ _)))
  case tlm => exact .check rfl (.check rfl (.ok _ _))

/-- Past the empty payload the errors are those of the frame decoder (R172). -/
theorem buildBytes_onlyRaises (overhead : Nat) (ft : Byte) (p : List Byte) :
    OnlyRaises .cmdBuild (buildBytes overhead ft p) := by
  have hframe : OnlyRaises .cmdBuild (frameDecode ft p) := by
    refine (frameDecode_onlyRaises ft p).mono fun e he => ?_
    cases e with
    | lengthMismatch | invalidScheme | invalidFrameType => rfl
    | _ => cases he
  refine .check rfl ?_
  cases h : frameDecode ft p with
  | ok r => exact .ok _ _
  | error e => exact .error (hframe e h)

theorem encodeBody_onlyRaises (text : List Byte) (skip o : Nat) :
    OnlyRaises .cmdUrlenc (encodeBody text skip o) := by
  induction text generalizing skip o with
  | nil => exact .ok _ _
  | cons c rest ih =>
    cases skip with
    | succ skip => exact ih skip o
    | zero =>
      simp only [encodeBody, bind_pure_eq_map]
      split
      · exact .check rfl ((ih _ _).map _)
      · exact .check rfl (.check rfl ((ih _ _).map _))

theorem urlEncode_onlyRaises (text : List Byte) : OnlyRaises .cmdUrlenc (urlEncode text) := by
  simp only [urlEncode, bind_pure_eq_map]
  refine .check rfl ?_
  split
  · exact .error rfl
  · exact (encodeBody_onlyRaises _ _ _).map _

/-- No command's function answers an error outside the command's row of R207. -/
theorem commandAnswer_onlyRaises {i : Instr} (hi : isCommand i = true) (b : List Byte) (arg : Byte)
    (text : List Byte) : OnlyRaises i (commandAnswer i b arg text) := by
  cases i with
  | cmdDecode => exact fun _ _ => rfl
  | cmdScan => exact .check rfl ((scanBytesFrom_onlyRaises _ _ _ _).map _)
  | cmdFrame => exact (frameDecode_onlyRaises arg b).map _
  | cmdUrldec => exact .check rfl (.check rfl (.ok _ _))
  | cmdUrlenc => exact (urlEncode_onlyRaises text).map _
  | cmdBuild => exact (buildBytes_onlyRaises 1 arg b).map _
  | cmdReserved code => exact .error rfl
  | _ => cases hi

/-! ### Arguments that meet each error (R207) -/

/-- The host's registers with `b` and `text` in the input banks (R11, R12, R13). -/
def HostRegs.ofArguments (b : List Byte) (arg : Byte) (text : List Byte) : HostRegs :=
  { inBuf := Memory.writeBytes [] 0 b, inLen := BitVec.ofNat 5 b.length, arg := arg
    txtIn := Memory.writeBytes [] 0 text, txtInLen := BitVec.ofNat 7 text.length, cmd := 0 }

/-- The state after reset, once the host has loaded the arguments of a command. -/
def State.ofArguments (b : List Byte) (arg : Byte) (text : List Byte) : State :=
  State.reset.setHost (HostRegs.ofArguments b arg text)

theorem State.ofArguments_inBytes {b : List Byte} (h : b.length ≤ 31) (arg : Byte) (text : List Byte) :
    (State.ofArguments b arg text).inBytes = b :=
  State.inBytes_copied rfl rfl h

theorem State.ofArguments_text (b : List Byte) (arg : Byte) {text : List Byte} (h : text.length ≤ 127) :
    (State.ofArguments b arg text).text = text := by
  have hlen : (BitVec.ofNat 7 text.length).toNat = text.length := by
    rw [BitVec.toNat_ofNat, Nat.mod_eq_of_lt (by omega)]
  calc (State.ofArguments b arg text).text
      = (Memory.writeBytes [] 0 text).readBytes 0 (BitVec.ofNat 7 text.length).toNat := rfl
    _ = text := by rw [hlen, Memory.readBytes_writeBytes_nil]

/-- Some arguments of their registers' sizes (R11, R13) have the error as the answer of the command's function. -/
def CanAnswer (i : Instr) (e : ErrorKind) : Prop :=
  ∃ (b : List Byte) (arg : Byte) (text : List Byte), b.length ≤ 31 ∧ text.length ≤ 127 ∧
    commandAnswer i b arg text = .error e

theorem CanAnswer.of_input {i : Instr} {e : ErrorKind} (b : List Byte) (arg : Byte)
    (h : commandAnswer i b arg [] = .error e) (hb : b.length ≤ 31 := by decide) : CanAnswer i e :=
  ⟨b, arg, [], hb, by decide, h⟩

theorem CanAnswer.of_text {i : Instr} {e : ErrorKind} (text : List Byte)
    (h : commandAnswer i [] 0 text = .error e) (ht : text.length ≤ 127 := by decide) : CanAnswer i e :=
  ⟨[], 0, text, by decide, ht, h⟩

/-- Every marked cell of R207 has arguments that meet its error. -/
theorem canAnswer_of_mayRaise {i : Instr} {e : ErrorKind} (h : mayRaise i e = true) : CanAnswer i e := by
  cases i with
  | cmdDecode =>
    cases e with
    | invalidArgument => exact .of_input [] 0 rfl
    | notABeaconAdvertisement => exact .of_input [0x00] 0 rfl
    | boundsViolation => exact .of_input [0x01] 0 rfl
    | lengthMismatch => exact .of_input [0x04, 0x16, 0xAA, 0xFE, 0x00] 0 rfl
    | invalidScheme => exact .of_input [0x04, 0x16, 0xAA, 0xFE, 0x10, 0x00, 0x04] 0 rfl
    | invalidFrameType => exact .of_input [0x04, 0x16, 0xAA, 0xFE, 0x30] 0 rfl
  | cmdScan =>
    cases e with
    | invalidArgument => exact .of_input [] 0 rfl
    | notABeaconAdvertisement => exact .of_input [0x00] 0 rfl
    | boundsViolation => exact .of_input [0x01] 0 rfl
    | invalidFrameType => exact .of_input [0x04, 0x16, 0xAA, 0xFE, 0x30] 0 rfl
    | _ => cases h
  | cmdFrame =>
    cases e with
    | lengthMismatch => exact .of_input [] 0x00 rfl
    | invalidScheme => exact .of_input [0x00, 0x04] 0x10 rfl
    | invalidFrameType => exact .of_input [] 0x30 rfl
    | _ => cases h
  | cmdUrldec =>
    cases e with
    | lengthMismatch => exact .of_input (List.replicate 17 0x61) 0 rfl
    | invalidScheme => exact .of_input [] 4 rfl
    | _ => cases h
  | cmdUrlenc =>
    cases e with
    | invalidArgument => exact .of_text [] rfl
    | lengthMismatch => exact .of_text (prefixRom 2 ++ List.replicate 17 0x61) rfl
    | invalidScheme => exact .of_text [0x61] rfl
    | _ => cases h
  | cmdBuild =>
    cases e with
    | invalidArgument => exact .of_input [] 0 rfl
    | lengthMismatch => exact .of_input [0x00] 0x00 rfl
    | invalidScheme => exact .of_input [0x00, 0x04] 0x10 rfl
    | invalidFrameType => exact .of_input [0x00] 0x30 rfl
    | _ => cases h
  | cmdReserved code =>
    cases e with
    | invalidArgument => exact .of_input [] 0 rfl
    | _ => cases h
  | _ => cases h

/-! ### The table of R207 -/

/-- The error kind that the host reads in `ERR_CODE` after an error (R16). -/
def ErrorKind.ofCode (c : BitVec 3) : ErrorKind :=
  match c.toNat with
  | 1 => .invalidArgument
  | 2 => .notABeaconAdvertisement
  | 3 => .boundsViolation
  | 4 => .lengthMismatch
  | 5 => .invalidScheme
  | _ => .invalidFrameType

theorem ErrorKind.ofCode_errorCode (e : ErrorKind) : ofCode (errorCode e) = e := by
  cases e <;> rfl

theorem errorCode_injective : Function.Injective errorCode := Function.LeftInverse.injective ErrorKind.ofCode_errorCode

/-- An error entry tells which error its command's function answered. -/
theorem State.report_blk_eq_failed_iff {s : State} {x : Except ErrorKind BlockRegs} {e : ErrorKind} :
    (s.report x).blk = BlockRegs.failed e ↔ x = .error e := by
  constructor
  · intro h
    cases x with
    | ok b =>
      have hstatus : statusDone = statusDoneErr := congrArg BlockRegs.status h
      exact absurd hstatus (by decide)
    | error e' =>
      have hcode : errorCode e' = errorCode e := congrArg BlockRegs.errCode h
      rw [errorCode_injective hcode]
  · rintro rfl
    rfl

/-- Settles O15: a command's error is its function's answer, whose errors and arguments are those of the table. -/
theorem errorsOfEachCommand : Obligations.ErrorsOfEachCommand := by
  intro i e hi
  constructor
  · rintro ⟨s, t, hexec, hblk⟩
    rw [exec_command hi, Host.Outcome.next.injEq] at hexec
    rw [← hexec, State.report_blk_eq_failed_iff] at hblk
    exact commandAnswer_onlyRaises hi _ _ _ e hblk
  · intro hmay
    obtain ⟨b, arg, text, hb, htext, hans⟩ := canAnswer_of_mayRaise hmay
    have hexec : exec i (State.ofArguments b arg text) = .next ((State.ofArguments b arg text).takeError e) := by
      refine exec_of_commandAnswer_error hi ?_
      rw [State.ofArguments_inBytes hb, State.ofArguments_text b arg htext]
      exact hans
    exact ⟨_, _, hexec, rfl⟩

end Sys2Proof.Machine
end

