-- ==== Sys2Proof/Proofs/AfterReset.lean ====
section
/-! The commands straight after a reset (70_reset_and_hazards.md R222): with both lengths 0 the arguments are empty,
whatever the reset left in the input banks. -/

namespace Sys2Proof.Machine

/-! ### The arguments a reset leaves (R221) -/

@[simp] theorem State.resetWith_len (s : State) (a b : List Byte) : (s.resetWith a b).len = 0 := rfl
@[simp] theorem State.resetWith_arg (s : State) (a b : List Byte) : (s.resetWith a b).host.arg = 0 := rfl
@[simp] theorem State.resetWith_inBytes (s : State) (a b : List Byte) : (s.resetWith a b).inBytes = [] := rfl
@[simp] theorem State.resetWith_text (s : State) (a b : List Byte) : (s.resetWith a b).text = [] := rfl

/-! ### The functions on an empty input -/

@[simp] theorem decodeBytes_nil : decodeBytes [] = .error .invalidArgument := rfl

@[simp] theorem buildBytes_nil (overhead : Nat) (ft : Byte) : buildBytes overhead ft [] = .error .invalidArgument := rfl

/-- An empty body decodes to the string of the scheme alone (R146). -/
@[simp] theorem urlDecode_nil (k : Nat) : urlDecode k [] = prefixRom k := List.append_nil _

theorem frameDecode_uid_nil : frameDecode 0x00 [] = .error .lengthMismatch := frameDecode_uid []

/-- Settles O24: each command computes its function, of the empty arguments and `ARG` = 0. -/
theorem commandsStraightAfterReset : Obligations.CommandsStraightAfterReset := by
  intro s a b r
  have harg : r.host.arg = 0 := s.resetWith_arg a b
  have hin : r.inBytes = [] := s.resetWith_inBytes a b
  have htext : r.text = [] := s.resetWith_text a b
  obtain ⟨hscan, -⟩ := scanCommandComputesScan r
  obtain ⟨hdecode, -⟩ := decodeCommandComputesDecode r
  obtain ⟨hframe, -⟩ := frameCommandComputesFrameDecode r
  obtain ⟨-, -, hurldec⟩ := urlDecodeCommandComputesUrlDecode r
  obtain ⟨hurlenc, -⟩ := urlEncodeCommandWritesTheEncodedUrl r
  obtain ⟨hbuild, -⟩ := buildCommandComputesBuildPacket r
  rw [hin] at hdecode
  rw [harg, hin] at hframe hbuild
  rw [harg, hin, urlDecode_nil] at hurldec
  rw [htext] at hurlenc
  exact ⟨hdecode _ decodeBytes_nil, hscan (s.resetWith_len a b), hframe _ frameDecode_uid_nil,
    hurldec (Nat.zero_le 16) (Nat.zero_le 3), hurlenc _ urlEncode_nil, hbuild _ (buildBytes_nil 1 0),
    fun code => exec_cmdReserved code r⟩

end Sys2Proof.Machine
end
